-- ==== Sys2Proof/Word.lean ====
section
/-! DEFINITION. The machine's word types: the byte (cells, registers, operands), the program counter and the register
index (spec/00_scope.md R8). -/

namespace Sys2Proof

/-- An unsigned 8-bit value: a memory cell, a register's contents, an opcode or operand byte (R8, R20, R60). -/
abbrev Byte := BitVec 8

/-- The program counter's 9 bits (R26, decision D4): 256 is held exactly, not wrapped to 0. -/
abbrev Pc := BitVec 9

/-- The index of one of the eight general registers R0 to R7 (R20, R21). -/
abbrev Reg := Fin 8

/-- The stack pointer is register R7 (R24). -/
abbrev SP : Reg := 7

end Sys2Proof
end

