-- ==== Sys2Proof/Machine/Flags.lean ====
section
/-! DEFINITION. Narrowing an exact result to a byte. The block has no flags (spec/10_state.md R33): what carry, borrow
or overflow would record is dropped here and nowhere kept (spec/44_arithmetic.md R205). -/

namespace Sys2Proof.Machine

/-- `(e) mod 256` of an exact integer result (R10, R205). -/
def mod256 (e : Int) : Byte := BitVec.ofInt 8 e

end Sys2Proof.Machine
end

