-- ==== Sys2Proof/Config.lean ====
section
/-! DEFINITION. What one implementation of the LS-8 fixes (spec/00_scope.md R8): the opcode assignment's shape and what
it must satisfy, and the host's open exit status. -/

namespace Sys2Proof

/-- `OPCODE_VALUES` (R8, decision D1): the opcode byte of each of the ten handlers. The assignment of this hardware is
`opcodeValues` in Decode.lean. -/
structure OpcodeValues where
  hlt  : Byte
  ldi  : Byte
  prn  : Byte
  push : Byte
  pop  : Byte
  add  : Byte
  sub  : Byte
  mul  : Byte
  inc  : Byte
  dec  : Byte
  deriving DecidableEq, Repr

/-- The ten bytes, in the order of the table of R106. -/
def OpcodeValues.toList (v : OpcodeValues) : List Byte :=
  [v.hlt, v.ldi, v.prn, v.push, v.pop, v.add, v.sub, v.mul, v.inc, v.dec]

/-- What the source requires of an assignment: bits 7:6 of each byte are the handler's operand count (R102, R104), and
the opcode is a dispatch key (R101), so no two handlers share a byte. -/
abbrev OpcodeValues.Valid (v : OpcodeValues) : Prop :=
  (v.hlt.toNat / 64 = 0 ∧ v.ldi.toNat / 64 = 2 ∧ v.prn.toNat / 64 = 1 ∧ v.push.toNat / 64 = 1 ∧ v.pop.toNat / 64 = 1 ∧
    v.add.toNat / 64 = 2 ∧ v.sub.toNat / 64 = 2 ∧ v.mul.toNat / 64 = 2 ∧ v.inc.toNat / 64 = 1 ∧ v.dec.toNat / 64 = 1) ∧
  v.toList.Nodup

/-- Free value (log entry 8): `FAULT_EXIT_STATUS(cause)` less one, by numeric fault code. R321 leaves the status open
but for its being nonzero, so the status is this number plus one. -/
opaque Config.faultExitStatusLessOne : Nat → Nat

end Sys2Proof
end

