-- ==== Sys2Proof/Syntax.lean ====
section
/-! DEFINITION. The instructions: one constructor per row of spec/opcode_table.json, named by its mnemonic. -/

namespace Sys2Proof

/-- An LS-8 instruction with its operand bytes as fetched (spec/30_encoding.md R104). A register operand is a whole
byte: 8 to 255 is no decode error but a fault of the handler (R23, R109), so the byte itself is the operand. -/
inductive Instr where
  | hlt
  | ldi (a b : Byte)
  | prn (a : Byte)
  | push (a : Byte)
  | pop (a : Byte)
  | add (a b : Byte)
  | sub (a b : Byte)
  | mul (a b : Byte)
  | inc (a : Byte)
  | dec (a : Byte)
  deriving DecidableEq, Repr

end Sys2Proof
end

