-- ==== Sys2Proof/Decode.lean ====
section
/-! DEFINITION. The decoder, the encoder and this hardware's opcode bytes (spec/30_encoding.md). -/

namespace Sys2Proof

/-- The opcode bytes of this hardware (R106, decision D1, taken by the spec from general knowledge; UNVERIFIED, log entry 1). -/
def opcodeValues : OpcodeValues where
  hlt  := 0x01
  ldi  := 0x82
  prn  := 0x47
  push := 0x45
  pop  := 0x46
  add  := 0xA0
  sub  := 0xA1
  mul  := 0xA2
  inc  := 0x65
  dec  := 0x66

/-- `N = op[7:6]` (R102, R142). -/
def operandCount (op : Byte) : Nat := (op.extractLsb 7 6).toNat

/-- The instruction length in bytes, from its first byte alone (R102, R110). -/
def lengthOf (op : Byte) : Nat := operandCount op + 1

/-- The handler table (R143, R145): from the whole opcode byte to the instruction its operand bytes make. An instruction
that lacks an operand ignores the placeholder (R149). -/
def lookupHandler (v : OpcodeValues) (op : Byte) : Option (Byte → Byte → Instr) :=
  if op = v.hlt then some fun _ _ => .hlt
  else if op = v.ldi then some fun a b => .ldi a b
  else if op = v.prn then some fun a _ => .prn a
  else if op = v.push then some fun a _ => .push a
  else if op = v.pop then some fun a _ => .pop a
  else if op = v.add then some fun a b => .add a b
  else if op = v.sub then some fun a b => .sub a b
  else if op = v.mul then some fun a b => .mul a b
  else if op = v.inc then some fun a _ => .inc a
  else if op = v.dec then some fun a _ => .dec a
  else none

/-- What decoding answers: an instruction, or by name why there is none. -/
inductive Decoded where
  /-- The instruction read. -/
  | instr (i : Instr)
  /-- There is no byte where the opcode should be (R141). -/
  | noOpcode
  /-- The byte has no handler (R107, R143). -/
  | unregistered (op : Byte)
  /-- The opcode needs a `k`-th operand byte and there is none (R144). -/
  | missingOperand (op : Byte) (k : Nat)
  deriving DecidableEq, Repr

/-- The `k`-th operand byte where the opcode has one (R144), else the placeholder 0 of R149; no byte beyond the `N`
operands is asked for (decision D2). -/
def operandAt (op : Byte) (byteAt : Nat → Option Byte) (k : Nat) : Option Byte :=
  if k ≤ operandCount op then byteAt k else some 0

/-- Decoding in the order of R149, from a byte source that answers the byte at an offset from the opcode, if there is
one. The handler is looked up before any operand byte (decision D16). -/
def decodeFrom (v : OpcodeValues) (byteAt : Nat → Option Byte) : Decoded :=
  match byteAt 0 with
  | none => .noOpcode
  | some op =>
    match lookupHandler v op with
    | none => .unregistered op
    | some handler =>
      match operandAt op byteAt 1 with
      | none => .missingOperand op 1
      | some a =>
        match operandAt op byteAt 2 with
        | none => .missingOperand op 2
        | some b => .instr (handler a b)

/-- Decode the instruction at the front of a byte sequence under an opcode assignment. -/
def decodeWith (v : OpcodeValues) (bytes : List Byte) : Decoded := decodeFrom v fun k => bytes[k]?

/-- Decode the instruction at the front of a byte sequence, under this hardware's opcode bytes (R111). -/
def decode (bytes : List Byte) : Decoded := decodeWith opcodeValues bytes

/-- The opcode byte of an instruction (R106). -/
def opcodeWith (v : OpcodeValues) : Instr → Byte
  | .hlt => v.hlt
  | .ldi _ _ => v.ldi
  | .prn _ => v.prn
  | .push _ => v.push
  | .pop _ => v.pop
  | .add _ _ => v.add
  | .sub _ _ => v.sub
  | .mul _ _ => v.mul
  | .inc _ => v.inc
  | .dec _ => v.dec

/-- The operand bytes of an instruction, first operand first (R100, R112). -/
def operandBytes : Instr → List Byte
  | .hlt => []
  | .ldi a b => [a, b]
  | .prn a => [a]
  | .push a => [a]
  | .pop a => [a]
  | .add a b => [a, b]
  | .sub a b => [a, b]
  | .mul a b => [a, b]
  | .inc a => [a]
  | .dec a => [a]

/-- The bytes of an instruction under an opcode assignment (R100, R104). -/
def encodeWith (v : OpcodeValues) (i : Instr) : List Byte := opcodeWith v i :: operandBytes i

/-- The opcode byte of an instruction on this hardware. -/
def opcodeOf (i : Instr) : Byte := opcodeWith opcodeValues i

/-- The bytes of an instruction on this hardware. -/
def encode (i : Instr) : List Byte := encodeWith opcodeValues i

/-- The three bytes of the table's word `w` of `nbits` bits, first byte at the lowest address; bits from `nbits` on are
zero (log entry 7). -/
def tableWordBytes (nbits w : Nat) : List Byte :=
  let x := w % 2 ^ nbits
  [BitVec.ofNat 8 x, BitVec.ofNat 8 (x / 256), BitVec.ofNat 8 (x / 65536)]

/-- The instruction the decoder reads from a word numbered as spec/opcode_table.json numbers it. -/
def decodeTableWord (nbits w : Nat) : Option Instr :=
  match decode (tableWordBytes nbits w) with
  | .instr i => some i
  | .noOpcode => none
  | .unregistered _ => none
  | .missingOperand _ _ => none

end Sys2Proof
end

