-- ==== Sys2Proof/Machine/State.lean ====
section
/-! DEFINITION. The machine's whole state (spec/10_state.md R37), its reasons to stop, and the state after reset. -/

namespace Sys2Proof.Machine

/-- The run state (R30). -/
inductive RunState where
  | running
  | halted
  | faulted
  deriving DecidableEq, Repr

/-- The four faults of the block (R300). -/
inductive FaultCause where
  | decodeError
  | fetchOutOfBounds
  | stackOutOfBounds
  | badRegister
  deriving DecidableEq, Repr

/-- The fault record `(cause, fpc, opcode, addr)` (R31). `opcode` is none when the opcode fetch itself faulted; `addr`
is an integer, since PUSH records -1 (R300). -/
structure FaultRecord where
  cause  : FaultCause
  fpc    : Pc
  opcode : Option Byte
  addr   : Int
  deriving DecidableEq, Repr

/-- Memory as a list of cells in canonical form: addresses strictly rising, no cell that holds what an unlisted address
reads as (`Memory.wf` in Ops.lean). -/
abbrev Memory := List Host.Cell

/-- The complete architectural state (R37). -/
structure State where
  /-- R0 to R7 (R20). -/
  regs  : Vector Byte 8
  /-- The address of the instruction to fetch (R26). -/
  pc    : Pc
  /-- The 256 cells (R60). -/
  mem   : Memory
  /-- R30. -/
  run   : RunState
  /-- The fault record, none until a fault is raised (R31). -/
  fault : Option FaultRecord
  /-- The output stream, first value first (R32). -/
  out   : List Byte
  deriving DecidableEq, Repr

/-- Why the step function gives no next state. None of these is one of the block's four faults: those are entered as a
next state (R303). -/
inductive Fault where
  /-- Raised by `step` in a HALTED state, which has no outgoing step (R140, R304). Safe: the block stops there too. -/
  | haltedTakesNoStep
  /-- Raised by `step` in a FAULTED state, which has no outgoing step (R140, R304). Safe: the block stops there too. -/
  | faultedTakesNoStep
  deriving DecidableEq, Repr

/-- Why something is refused. -/
inductive Refusal where
  /-- Raised by `exec` for an instruction without a meaning, by its mnemonic; no arm of this model does. Safe. -/
  | notModelled (mnemonic : String)
  /-- Raised by `initialise` for an image longer than 256 bytes: the block never starts (R401). Safe. -/
  | imageTooLong
  deriving DecidableEq, Repr

/-- What executing something answers. -/
abbrev Result := Host.Outcome State Fault Refusal

/-- The state after initialisation with the empty image (R40 to R45, R400): R0 to R6 zero (log entry 2), R7 = 0xF4,
pc = 0, every cell 0x00 (log entry 3). -/
def State.reset : State where
  regs  := #v[0x00, 0x00, 0x00, 0x00, 0x00, 0x00, 0x00, 0xF4]
  pc    := 0
  mem   := []
  run   := .running
  fault := none
  out   := []

end Sys2Proof.Machine
end

