-- ==== Sys2Proof/Machine/Ops.lean ====
section
/-! DEFINITION. The named operations over memory and registers, completing an instruction, and taking a fault. -/

namespace Sys2Proof.Machine

/-- What an unlisted cell reads as: the zero fill of R43 (decision D12; log entry 3). -/
def Memory.unlisted : Byte := 0x00

/-- The canonical form: addresses strictly rising and below 256, no cell holding the unlisted value. -/
abbrev Memory.wf (m : Memory) : Prop :=
  m.Pairwise (fun c d => c.1 < d.1) ∧ ∀ c ∈ m, c.1 < 256 ∧ c.2 ≠ Memory.unlisted

/-- `M[a]` (R61). -/
def Memory.read : Memory → Nat → Byte
  | [], _ => Memory.unlisted
  | (k, v) :: m, a => if a = k then v else Memory.read m a

/-- `M[a] <- v` (R62), keeping the canonical form. -/
def Memory.write : Memory → Nat → Byte → Memory
  | [], a, v => if v = Memory.unlisted then [] else [(a, v)]
  | (k, w) :: m, a, v =>
    if a < k then (if v = Memory.unlisted then (k, w) :: m else (a, v) :: (k, w) :: m)
    else if a = k then (if v = Memory.unlisted then m else (a, v) :: m)
    else (k, w) :: Memory.write m a v

/-- Whether an address is inside the 256 cells (R60). -/
abbrev inMemory (a : Nat) : Prop := a < 256

/-- `MemRead(a, 1)` with its precondition checked (R61): none tells the caller to raise its fault. -/
def Memory.fetch (m : Memory) (a : Nat) : Option Byte := if inMemory a then some (m.read a) else none

/-- The bytes placed one after another from an address on; a byte that would lie past the last cell is dropped (an image
is at most 256 bytes from 0, R400, R401). -/
def Memory.place (m : Memory) : Nat → List Byte → Memory
  | _, [] => m
  | a, v :: vs => Memory.place (if inMemory a then m.write a v else m) (a + 1) vs

/-- `x[r]` (R10). -/
def State.reg (s : State) (r : Reg) : Byte := s.regs[r]

/-- `x[r] <- v` (R10); no register is hardwired (R22). -/
def State.setReg (s : State) (r : Reg) (v : Byte) : State := { s with regs := s.regs.set r v }

/-- `M[a] <- v` on the state. -/
def State.store (s : State) (a : Nat) (v : Byte) : State := { s with mem := s.mem.write a v }

/-- `emit(v)`: append to the output stream (R32). -/
def State.emit (s : State) (v : Byte) : State := { s with out := s.out ++ [v] }

/-- `halt()`: the cycle ends (R147). -/
def State.halt (s : State) : State := { s with run := .halted }

/-- The pc moves past the instruction with this opcode byte (R146). -/
def State.advance (s : State) (op : Byte) : State := { s with pc := s.pc + BitVec.ofNat 9 (lengthOf op) }

/-- A handler is done: its state with the pc advanced (R146, R149). -/
def complete (op : Byte) (s : State) : Result := .next (s.advance op)

/-- Taking a fault (R148, R303): run becomes FAULTED, the record is written, nothing else changes. There is no return
from a fault (R304): only `initialise` leaves FAULTED. -/
def State.enterFault (s : State) (r : FaultRecord) : State := { s with run := .faulted, fault := some r }

/-- A handler of opcode `op` raises a fault (R149): `s` is the state at the start of the step. -/
def raise (op : Byte) (cause : FaultCause) (addr : Int) (s : State) : Result :=
  .next (s.enterFault { cause := cause, fpc := s.pc, opcode := some op, addr := addr })

/-- The numeric code of a fault (R300, decision D7). -/
def FaultCause.code : FaultCause → Nat
  | .decodeError => 1
  | .fetchOutOfBounds => 2
  | .stackOutOfBounds => 3
  | .badRegister => 4

/-- The code of the recorded fault; 0 is 'no fault recorded' (R300). -/
def State.faultCode (s : State) : Nat :=
  match s.fault with
  | none => 0
  | some r => r.cause.code

end Sys2Proof.Machine
end

