-- ==== Sys2Proof/Machine/Operands.lean ====
section
/-! DEFINITION. The operand forms: the register operand with its check, and the two stack addresses. An immediate is its
byte as fetched (spec/30_encoding.md R105) and needs no operation. -/

namespace Sys2Proof.Machine

/-- The register an operand byte selects (R23): 0 to 7, the byte is not masked. -/
def regOperand (a : Byte) : Option Reg := if h : a.toNat < 8 then some ⟨a.toNat, h⟩ else none

/-- `reg(a)`, the register check at the head of spec/42_data_movement.md, with the handler's rest: BAD_REGISTER records
the offending operand. -/
def withReg (op a : Byte) (s : State) (rest : Reg → Result) : Result :=
  match regOperand a with
  | some r => rest r
  | none => raise op .badRegister a.toNat s

/-- PUSH's effective address `x[7] - 1`, on integers (R190): it may be -1. -/
def pushAddress (s : State) : Int := (s.reg SP).toNat - 1

/-- POP's effective address `x[7]`, always inside memory (R191). -/
def popAddress (s : State) : Nat := (s.reg SP).toNat

end Sys2Proof.Machine
end

