-- ==== Sys2Proof/Machine/Arithmetic.lean ====
section
/-! DEFINITION. ADD, SUB, MUL, INC and DEC (spec/44_arithmetic.md): the exact result on integers, reduced modulo 256
(R205). Any of them may name R7, with no bounds check (spec/10_state.md R25). -/

namespace Sys2Proof.Machine

/-- `x[d] <- f(x[d], x[r]) mod 256`; operand a is checked before operand b. -/
def arithTwo (op : Byte) (f : Int → Int → Int) (a b : Byte) (s : State) : Result :=
  withReg op a s fun d =>
    withReg op b s fun r => complete op (s.setReg d (mod256 (f (s.reg d).toNat (s.reg r).toNat)))

/-- `x[d] <- f(x[d]) mod 256`. -/
def arithOne (op : Byte) (f : Int → Int) (a : Byte) (s : State) : Result :=
  withReg op a s fun d => complete op (s.setReg d (mod256 (f (s.reg d).toNat)))

/-- ADD (R200). -/
def execAdd (a b : Byte) (s : State) : Result := arithTwo opcodeValues.add (fun x y => x + y) a b s

/-- SUB (R201). -/
def execSub (a b : Byte) (s : State) : Result := arithTwo opcodeValues.sub (fun x y => x - y) a b s

/-- MUL (R202). -/
def execMul (a b : Byte) (s : State) : Result := arithTwo opcodeValues.mul (fun x y => x * y) a b s

/-- INC (R203). -/
def execInc (a : Byte) (s : State) : Result := arithOne opcodeValues.inc (fun x => x + 1) a s

/-- DEC (R204). -/
def execDec (a : Byte) (s : State) : Result := arithOne opcodeValues.dec (fun x => x - 1) a s

end Sys2Proof.Machine
end

