-- ==== Sys2Proof/Machine/Control.lean ====
section
/-! DEFINITION. HALT (spec/41_control.md). -/

namespace Sys2Proof.Machine

/-- HALT (R170): the cycle ends, and the pc still advances past it (R146, decision D14; log entry 13). -/
def execHlt (s : State) : Result := complete opcodeValues.hlt s.halt

end Sys2Proof.Machine
end

