-- ==== Sys2Proof/Machine/DataMovement.lean ====
section
/-! DEFINITION. LOAD_IMMEDIATE and PRINT_REGISTER (spec/42_data_movement.md). -/

namespace Sys2Proof.Machine

/-- LOAD_IMMEDIATE (R180). -/
def execLdi (a b : Byte) (s : State) : Result :=
  withReg opcodeValues.ldi a s fun d => complete opcodeValues.ldi (s.setReg d b)

/-- PRINT_REGISTER (R181). -/
def execPrn (a : Byte) (s : State) : Result :=
  withReg opcodeValues.prn a s fun r => complete opcodeValues.prn (s.emit (s.reg r))

end Sys2Proof.Machine
end

