-- ==== Sys2Proof/Machine/Stack.lean ====
section
/-! DEFINITION. PUSH and POP (spec/43_stack.md): the only data accesses to memory. The stack pointer is computed on
integers, so that -1 and 256 are seen by the checks before anything is written (decision D8). -/

namespace Sys2Proof.Machine

/-- PUSH (R190): decrement R7, then store the operand register, which is read after the decrement (decision D10; log
entry 12). -/
def execPush (a : Byte) (s : State) : Result :=
  withReg opcodeValues.push a s fun r =>
    if pushAddress s < 0 then raise opcodeValues.push .stackOutOfBounds (pushAddress s) s
    else
      let t := s.setReg SP (mod256 (pushAddress s))
      complete opcodeValues.push (t.store (pushAddress s).toNat (t.reg r))

/-- POP (R191): load the operand register, then increment R7, which for POP(R7) is the value just loaded (decision D10;
log entry 12). -/
def execPop (a : Byte) (s : State) : Result :=
  withReg opcodeValues.pop a s fun d =>
    let t := s.setReg d (s.mem.read (popAddress s))
    let sp1 : Int := (t.reg SP).toNat + 1
    if 255 < sp1 then raise opcodeValues.pop .stackOutOfBounds sp1 s
    else complete opcodeValues.pop (t.setReg SP (mod256 sp1))

end Sys2Proof.Machine
end

