-- ==== Sys2Proof/Machine/Cycle.lean ====
section
/-! DEFINITION. Fetching and decoding from memory, and one iteration of the cycle (spec/40_cycle.md R149). -/

namespace Sys2Proof.Machine

/-- What the decoder reads at the pc (R141 to R144): the byte at offset `k` is `M[pc + k]`, if that is inside memory. -/
def fetchDecode (s : State) : Decoded := decodeFrom opcodeValues fun k => s.mem.fetch (s.pc.toNat + k)

/-- The record of the fetch's or decoder's fault (R141, R143, R144). -/
def fetchFault (s : State) (cause : FaultCause) (opcode : Option Byte) (k : Nat) : FaultRecord where
  cause  := cause
  fpc    := s.pc
  opcode := opcode
  addr   := ((s.pc.toNat + k : Nat) : Int)

/-- One iteration of the cycle in a RUNNING state (R149). -/
def cycle (s : State) : Result :=
  match fetchDecode s with
  | .instr i => exec i s
  | .noOpcode => .next (s.enterFault (fetchFault s .fetchOutOfBounds none 0))
  | .unregistered op => .next (s.enterFault (fetchFault s .decodeError (some op) 0))
  | .missingOperand op k => .next (s.enterFault (fetchFault s .fetchOutOfBounds (some op) k))

/-- The table's word placed at the pc (log entry 7). -/
def placeTableWord (s : State) (nbits w : Nat) : State :=
  { s with mem := s.mem.place s.pc.toNat (tableWordBytes nbits w) }

end Sys2Proof.Machine
end

