-- ==== Sys2Proof/Machine/Step.lean ====
section
/-! DEFINITION. The step (spec/40_cycle.md R140), and placing a word where the next step fetches. -/

namespace Sys2Proof.Machine

/-- A step is defined only while RUNNING (R140): HALTED and FAULTED have no outgoing step (R304). -/
def step (s : State) : Host.Outcome State Fault Refusal :=
  match s.run with
  | .running => cycle s
  | .halted => .fault .haltedTakesNoStep
  | .faulted => .fault .faultedTakesNoStep

/-- The state with the table's word stored at the pc, where the next step fetches (log entry 7). -/
def State.withFetchWord (s : State) (nbits w : Nat) : State := placeTableWord s nbits w

end Sys2Proof.Machine
end

