-- ==== Sys2Proof/Machine/HostSide.lean ====
section
/-! DEFINITION. What the host computes from the state between steps or after a run (spec/60_exceptions.md R320, R321):
the termination status and the text of the output. -/

namespace Sys2Proof.Machine

/-- The exit status of a run that has ended (R321): 0 on HALTED, and on FAULTED the open, nonzero
`FAULT_EXIT_STATUS(cause)` (decision D20; log entry 8). A RUNNING state has none yet (R152). -/
def exitStatus (s : State) : Option Nat :=
  match s.run with
  | .running => none
  | .halted => some 0
  | .faulted => some (Config.faultExitStatusLessOne s.faultCode + 1)

/-- The decimal digits of a byte, most significant first, without leading zeros (R320; log entry 9). -/
def decimalDigits (v : Byte) : List Nat :=
  if v.toNat < 10 then [v.toNat]
  else if v.toNat < 100 then [v.toNat / 10, v.toNat % 10]
  else [v.toNat / 100, v.toNat / 10 % 10, v.toNat % 10]

/-- One printed value as text: its digits and one line end (R320; log entry 9). -/
def renderValue (v : Byte) : List Char := (decimalDigits v).map (fun d => Char.ofNat (48 + d)) ++ ['\n']

/-- The text the host prints for an output stream, in the order appended (R320). -/
def renderOutput (out : List Byte) : List Char := out.flatMap renderValue

end Sys2Proof.Machine
end

