-- ==== Sys2Proof/Machine/Boot.lean ====
section
/-! DEFINITION. Initialisation by the host (spec/70_reset_and_hazards.md R400 to R402). -/

namespace Sys2Proof.Machine

/-- `init(image)` (R400): the whole state is replaced (R402), the image lies from address 0 on, the rest is as after
reset. A longer image than memory is refused and the block never starts (R401). -/
def initialise (image : List Byte) : Result :=
  if image.length ≤ 256 then .next { State.reset with mem := Memory.place [] 0 image }
  else .refused .imageTooLong

end Sys2Proof.Machine
end

