-- ==== Sys2Proof/Safety.lean ====
section
/-! DEFINITION. What counts as a safe run, and the invariant every step keeps. -/

namespace Sys2Proof.Machine

/-- The opcode byte has a handler (R107, R143). -/
abbrev registered (op : Byte) : Prop := op ∈ opcodeValues.toList

/-- What a record raised by this block can hold, by cause (R300). -/
def FaultRecord.Legal (r : FaultRecord) : Prop :=
  match r.cause with
  | .decodeError => (∃ op, r.opcode = some op ∧ ¬ registered op) ∧ r.fpc.toNat ≤ 255 ∧ r.addr = r.fpc.toNat
  | .fetchOutOfBounds =>
    r.addr = 256 ∧
      ((r.opcode = none ∧ r.fpc.toNat = 256) ∨
        ∃ op, r.opcode = some op ∧ registered op ∧ r.fpc.toNat ≤ 255 ∧ 256 ≤ r.fpc.toNat + operandCount op)
  | .stackOutOfBounds =>
    (r.opcode = some opcodeValues.push ∧ r.addr = -1) ∨ (r.opcode = some opcodeValues.pop ∧ r.addr = 256)
  | .badRegister =>
    (∃ op, r.opcode = some op ∧ registered op ∧ op ≠ opcodeValues.hlt) ∧ 8 ≤ r.addr ∧ r.addr ≤ 255

/-- What holds of every state a run can reach (R26, R30, R31, R60). -/
structure State.Inv (s : State) : Prop where
  /-- Memory keeps its canonical form. -/
  memWf : s.mem.wf
  /-- The pc is at most 256 (R26). -/
  pcBound : s.pc.toNat ≤ 256
  /-- There is a fault record exactly in FAULTED (R30, R31). -/
  faultIff : s.run = .faulted ↔ s.fault.isSome
  /-- The record is one the block raises, and the pc still addresses the faulting instruction (R148, R300). -/
  faultLegal : ∀ r, s.fault = some r → r.Legal ∧ r.fpc = s.pc

/-- Every register outside `ds` holds what it held. -/
def RegsKept (ds : List Reg) (s t : State) : Prop := ∀ q, q ∉ ds → t.reg q = s.reg q

/-- Every byte of memory reads as it did. -/
def MemKept (s t : State) : Prop := ∀ a, t.mem.read a = s.mem.read a

/-- The run state, the fault record and the output stream are as they were. -/
def ControlKept (s t : State) : Prop := t.run = s.run ∧ t.fault = s.fault ∧ t.out = s.out

/-- The outcome is a fault taken (R148, R303): a next state that is FAULTED, with this record and nothing else changed. -/
def TakesFault (s : State) (res : Result) (cause : FaultCause) (opcode : Option Byte) (addr : Int) : Prop :=
  ∃ t, res = .next t ∧ t.run = .faulted ∧
    t.fault = some { cause := cause, fpc := s.pc, opcode := opcode, addr := addr } ∧
    (∀ r, t.reg r = s.reg r) ∧ MemKept s t ∧ t.pc = s.pc ∧ t.out = s.out

/-- The bytes of memory from the pc to its end. -/
def codeAt (s : State) : List Byte := (List.range (256 - s.pc.toNat)).map fun k => s.mem.read (s.pc.toNat + k)

/-- The run has ended (R152). -/
abbrev State.ended (s : State) : Prop := s.run ≠ .running

/-- The states of a run from some program image (R322, R400). -/
inductive Reachable : State → Prop
  | initial {image s} (h : initialise image = .next s) : Reachable s
  | step {s t} (hs : Reachable s) (h : step s = .next t) : Reachable t

/-- A safe state: no fault has been raised. -/
abbrev State.Safe (s : State) : Prop := s.run ≠ .faulted

/-- `k` steps from a state, by the host's own definition of a run. -/
def runFor (k : Nat) (s : State) : Result := Sys2Proof.core.run k s

/-- A run of `k` steps that ends normally, by HALT (R152). -/
def HaltsIn (k : Nat) (s t : State) : Prop := runFor k s = .next t ∧ t.run = .halted

end Sys2Proof.Machine
end

