-- ==== Sys2Proof/WellFormed.lean ====
section
/-! DEFINITION. Which instructions name only registers the machine has (spec/10_state.md R23, spec/30_encoding.md R104,
R109). An ill-formed one still decodes and runs: its handler raises BAD_REGISTER (log entry 10). -/

namespace Sys2Proof

/-- The operand byte is a register index 0 to 7 (R23). -/
def namesRegister (a : Byte) : Bool := a.toNat < 8

/-- Every register operand of the instruction names a register; an immediate is any byte (R105). -/
def Instr.wellFormed : Instr → Bool
  | .hlt => true
  | .ldi a _ => namesRegister a
  | .prn a => namesRegister a
  | .push a => namesRegister a
  | .pop a => namesRegister a
  | .add a b => namesRegister a && namesRegister b
  | .sub a b => namesRegister a && namesRegister b
  | .mul a b => namesRegister a && namesRegister b
  | .inc a => namesRegister a
  | .dec a => namesRegister a

end Sys2Proof
end

