-- ==== Sys2Proof/Certificates/Slice0/Obligations.lean ====
section
/-! DEFINITION. The statements for the provers. A rule of spec/ is cited by its number; a clause that rests on a decision
D<n> of spec/92_eei_decisions.md (the spec's own choice) or on a log entry of the model says so. -/

open Sys2Proof Sys2Proof.Machine

/-- After initialisation pc = 0, x[7] = 0xF4 and run = RUNNING.
R40, R41, R44. -/
def Obligations.InitialisationFixesPcStackPointerAndRun : Prop :=
  (State.reset.pc = 0 ∧ State.reset.reg SP = 0xF4 ∧ State.reset.run = .running) ∧
  ∀ image s, initialise image = .next s → s.pc = 0 ∧ (s.reg SP).toNat = 244 ∧ s.run = .running

/-- init(image) places the image at 0, zero-fills memory and clears R0-R6, fault and out (decisions D6, D11, D12).
R42, R43, R45, R400 (spec decisions D6, D11, D12; log entries 2 and 3). -/
def Obligations.InitialisationLoadsImageAndClearsTheRest : Prop :=
  ∀ image : List Byte, image.length ≤ 256 →
    ∃ s, initialise image = .next s ∧
      (∀ (a : Nat) (h : a < image.length), s.mem.read a = image[a]) ∧
      (∀ a, image.length ≤ a → s.mem.read a = 0x00) ∧
      (∀ r, r ≠ SP → s.reg r = 0x00) ∧ s.fault = none ∧ s.out = []

/-- An image over 256 bytes is refused; the empty image gives the reset state, whose first step is a decode error (decision D13).
R401, R108 (spec decision D13). -/
def Obligations.LongImageIsRefusedAndEmptyImageFaults : Prop :=
  (∀ image : List Byte, 256 < image.length → initialise image = .refused .imageTooLong) ∧
  initialise [] = .next State.reset ∧ TakesFault State.reset (step State.reset) .decodeError (some 0x00) 0

/-- Decode and encode agree, for every instruction, every operand byte and every valid opcode assignment.
Decoding drops no bit of an encoding, whichever valid OPCODE_VALUES a model is given (R100, R104, R106). -/
def Obligations.DecodeOfEncodeIsTheInstruction : Prop :=
  opcodeValues.Valid ∧
  (∀ v : OpcodeValues, v.Valid → ∀ (i : Instr) (rest : List Byte), decodeWith v (encodeWith v i ++ rest) = .instr i) ∧
  ∀ (i : Instr) (rest : List Byte), decode (encode i ++ rest) = .instr i

/-- Whatever bytes decode to an instruction begin with exactly its encoding.
R100, R104: every operand byte an instruction has is used. -/
def Obligations.DecodedBytesAreTheEncoding : Prop :=
  ∀ (bytes : List Byte) (i : Instr), decode bytes = .instr i → encode i <+: bytes

/-- The operand count is op[7:6] and the instruction length is N + 1 bytes.
R102. -/
def Obligations.OperandCountIsTopTwoBits : Prop :=
  (∀ op : Byte, operandCount op = op.toNat / 64) ∧
  ∀ i : Instr, (encode i).length = operandCount (opcodeOf i) + 1 ∧ operandCount (opcodeOf i) ≤ 2

/-- Words written out from the encoding table decode to their instructions (opcode bytes by decision D1, log entry 1).
A sanity check of the opcode bytes of R106, which the spec takes from general knowledge (decision D1; log entry 1). -/
def Obligations.WrittenOutWordsDecode : Prop :=
  decode [0x01] = .instr .hlt ∧ decode [0x82, 0x03, 0xFF] = .instr (.ldi 3 0xFF) ∧ decode [0x47, 0x07] = .instr (.prn 7) ∧
  decode [0x45, 0x02] = .instr (.push 2) ∧ decode [0x46, 0x06] = .instr (.pop 6) ∧ decode [0xA0, 0x01, 0x02] = .instr (.add 1 2) ∧
  decode [0xA1, 0x00, 0x05] = .instr (.sub 0 5) ∧ decode [0xA2, 0x03, 0x04] = .instr (.mul 3 4) ∧
  decode [0x65, 0x02] = .instr (.inc 2) ∧ decode [0x66, 0x07] = .instr (.dec 7)

/-- An opcode byte with no handler raises DECODE_ERROR before any operand is fetched, at any address.
R107, R143. Which ten bytes are registered is R106 (spec decision D1; log entry 1); the record's form is decision D6. -/
def Obligations.UnregisteredOpcodeIsADecodeError : Prop :=
  (∀ s : State, s.run = .running → s.pc.toNat ≤ 255 → ¬ registered (s.mem.read s.pc.toNat) →
    TakesFault s (step s) .decodeError (some (s.mem.read s.pc.toNat)) s.pc.toNat) ∧
  ((List.range 256).filter fun n => ¬ registered (BitVec.ofNat 8 n)).length = 246 ∧ ¬ registered 0x00 ∧
  ∀ op : Byte, 0xC0 ≤ op.toNat → ¬ registered op

/-- A RUNNING step is exec of the instruction its bytes at pc decode to, and adds nothing around it.
R145, R149: the handler of the fetched opcode runs with the fetched operand bytes. -/
def Obligations.StepRunsDecodedInstruction : Prop :=
  ∀ (s : State) (i : Instr), s.run = .running →
    (decode (codeAt s) = .instr i → step s = exec i s) ∧ (encode i <+: codeAt s → step s = exec i s)

/-- A step is defined only when RUNNING, and then it executes one instruction or takes a fault.
R140. -/
def Obligations.StepIsDefinedExactlyWhenRunning : Prop :=
  ∀ s : State,
    ((∃ t, step s = .next t) ↔ s.run = .running) ∧
    (s.run = .running → (∃ i, fetchDecode s = .instr i ∧ step s = exec i s) ∨
      (∀ i, fetchDecode s ≠ .instr i) ∧ ∃ t, step s = .next t ∧ t.run = .faulted)

/-- exec answers a next state for every instruction, operand and state, completing or taking a fault.
R145: a handler either completes or raises a fault; R300 says which. -/
def Obligations.EveryInstructionAnswersANextState : Prop :=
  ∀ (i : Instr) (s : State), ∃ t, exec i s = .next t ∧
    ((t.fault = s.fault ∧ t.run = (if i = .hlt then .halted else s.run)) ∨
      (∃ n : Nat, TakesFault s (exec i s) .badRegister (some (opcodeOf i)) n ∧ ¬ i.wellFormed) ∨
      (∃ n : Int, TakesFault s (exec i s) .stackOutOfBounds (some (opcodeOf i)) n ∧ i.wellFormed ∧
        ∃ a, i = .push a ∨ i = .pop a))

/-- A needed opcode or operand byte past 255 is FETCH_OUT_OF_BOUNDS, and only a needed one (decisions D2, D3, D16).
R141, R144, R29 (spec decisions D2, D3, D16). -/
def Obligations.FetchOutsideMemoryFaults : Prop :=
  ∀ s : State, s.run = .running →
    (255 < s.pc.toNat → TakesFault s (step s) .fetchOutOfBounds none s.pc.toNat) ∧
    (s.pc.toNat ≤ 255 → registered (s.mem.read s.pc.toNat) →
      (255 < s.pc.toNat + operandCount (s.mem.read s.pc.toNat) →
        TakesFault s (step s) .fetchOutOfBounds (some (s.mem.read s.pc.toNat)) 256) ∧
      (s.pc.toNat + operandCount (s.mem.read s.pc.toNat) ≤ 255 →
        ∃ i, opcodeOf i = s.mem.read s.pc.toNat ∧ step s = exec i s))

/-- The only transition to HALTED is HALT; every other completed instruction leaves RUNNING RUNNING.
R147. -/
def Obligations.OnlyHaltEntersHalted : Prop :=
  ∀ s t : State, step s = .next t →
    (t.run = .halted ↔ s.pc.toNat ≤ 255 ∧ s.mem.read s.pc.toNat = opcodeValues.hlt) ∧
    (t.run ≠ .halted → t.run = .running ∨ (t.run = .faulted ∧ t.fault.isSome)) ∧
    (t.run = .halted → ∀ u, step t ≠ .next u)

/-- A completed step advances pc by N + 1, a faulting one leaves it, and no instruction reads pc as data.
R27. -/
def Obligations.PcMovesOnlyByInstructionLength : Prop :=
  (∀ s t : State, step s = .next t →
    (t.run ≠ .faulted → t.pc.toNat = s.pc.toNat + (operandCount (s.mem.read s.pc.toNat) + 1)) ∧
    (t.run = .faulted → t.pc = s.pc)) ∧
  ∀ (i : Instr) (s t u : State) (p : Pc), exec i s = .next t → exec i { s with pc := p } = .next u →
    u.regs = t.regs ∧ u.mem = t.mem ∧ u.out = t.out ∧ u.run = t.run ∧ u.pc - p = t.pc - s.pc

/-- A step that raises a fault changes only run and the fault record, whose fpc is the pc (decision D6).
R148, R303 (spec decision D6). -/
def Obligations.FaultIsPrecise : Prop :=
  ∀ s t : State, step s = .next t → t.run = .faulted →
    RegsKept [] s t ∧ MemKept s t ∧ t.pc = s.pc ∧ t.out = s.out ∧ ∃ r, t.fault = some r ∧ r.fpc = s.pc

/-- A register operand of 8 to 255 raises BAD_REGISTER with the first offending operand, whatever the stack pointer (decisions D5, D16).
R23, R109, R302 (spec decisions D5, D16; log entry 10). -/
def Obligations.IllFormedInstructionIsBadRegister : Prop :=
  ∀ (i : Instr) (s : State),
    (¬ i.wellFormed → ∃ a, (operandBytes i).find? (fun x => ¬ namesRegister x) = some a ∧
      TakesFault s (exec i s) .badRegister (some (opcodeOf i)) a.toNat) ∧
    (i.wellFormed → ∀ n, ¬ TakesFault s (exec i s) .badRegister (some (opcodeOf i)) n)

/-- HALT: run becomes HALTED, pc advances by 1, nothing else changes; it halts at every address up to 255.
R170 (the opcode byte is spec decision D1, the pc after HALT D14). -/
def Obligations.HaltStopsTheCycle : Prop :=
  encode .hlt = [0x01] ∧
  (∀ s : State, ∃ t, exec .hlt s = .next t ∧ t.run = .halted ∧ t.pc = s.pc + 1 ∧ RegsKept [] s t ∧ MemKept s t ∧
    t.fault = s.fault ∧ t.out = s.out ∧ exitStatus t = some 0) ∧
  ∀ s : State, s.run = .running → s.pc.toNat ≤ 255 → s.mem.read s.pc.toNat = 0x01 →
    ∃ t, step s = .next t ∧ exec .hlt s = .next t ∧ t.run = .halted ∧ t.pc.toNat = s.pc.toNat + 1 ∧
      ∀ u, step t ≠ .next u

/-- LOAD_IMMEDIATE: x[a] becomes the immediate byte, any byte and any register, R7 unchecked.
R180 (the opcode byte is spec decision D1, BAD_REGISTER D5, the fetch bound D2 and D3). -/
def Obligations.LoadImmediateWritesTheByte : Prop :=
  (∀ a b : Byte, encode (.ldi a b) = [0x82, a, b]) ∧
  (∀ (s : State) (a b : Byte) (d : Reg), a.toNat = d.val →
    ∃ t, exec (.ldi a b) s = .next t ∧ t.reg d = b ∧ RegsKept [d] s t ∧ MemKept s t ∧ ControlKept s t ∧ t.pc = s.pc + 3) ∧
  (∀ (s : State) (a b : Byte), 8 ≤ a.toNat → TakesFault s (exec (.ldi a b) s) .badRegister (some 0x82) a.toNat) ∧
  (∀ (s t : State) (p : Byte), exec (.ldi 7 0) s = .next t → p.toNat < 8 →
    TakesFault t (exec (.push p) t) .stackOutOfBounds (some 0x45) (-1)) ∧
  (∀ s : State, s.run = .running → (s.pc.toNat = 254 ∨ s.pc.toNat = 255) → s.mem.read s.pc.toNat = 0x82 →
    TakesFault s (step s) .fetchOutOfBounds (some 0x82) 256)

/-- PRINT_REGISTER: the register's value is appended to the output, nothing else changes.
R181 (the opcode byte is spec decision D1, BAD_REGISTER D5, the fetch bound D2 and D3). -/
def Obligations.PrintRegisterAppendsTheValue : Prop :=
  (∀ a : Byte, encode (.prn a) = [0x47, a]) ∧
  (∀ (s : State) (a : Byte) (r : Reg), a.toNat = r.val →
    ∃ t, exec (.prn a) s = .next t ∧ t.out = s.out ++ [s.reg r] ∧ RegsKept [] s t ∧ MemKept s t ∧
      t.run = s.run ∧ t.fault = s.fault ∧ t.pc = s.pc + 2) ∧
  (∀ (s : State) (a : Byte), 8 ≤ a.toNat → TakesFault s (exec (.prn a) s) .badRegister (some 0x47) a.toNat) ∧
  (∀ s : State, s.run = .running → s.pc.toNat = 255 → s.mem.read s.pc.toNat = 0x47 →
    TakesFault s (step s) .fetchOutOfBounds (some 0x47) 256)

/-- PUSH: x[7] decreases by 1 and the register, read after that, is stored at the new x[7] (decisions D8, D10).
R190, R69 (spec decisions D8, D10; log entry 12). -/
def Obligations.PushStoresBelowTheStackPointer : Prop :=
  (∀ a : Byte, encode (.push a) = [0x45, a]) ∧
  ∀ (s : State) (a : Byte) (r : Reg), s.mem.wf → a.toNat = r.val → 1 ≤ (s.reg SP).toNat →
    pushAddress s = (s.reg SP).toNat - 1 ∧
    ∃ t, exec (.push a) s = .next t ∧ (t.reg SP).toNat = (s.reg SP).toNat - 1 ∧ RegsKept [SP] s t ∧
      (∀ p : Nat, (p : Int) = pushAddress s → t.mem.read p = t.reg r ∧ ∀ q, q ≠ p → t.mem.read q = s.mem.read q) ∧
      ControlKept s t ∧ t.pc = s.pc + 2

/-- PUSH faults: BAD_REGISTER first, then STACK_OUT_OF_BOUNDS with addr -1 when x[7] = 0; a cut off PUSH is a fetch fault (decisions D5, D8, D16).
R190, R302 (spec decisions D5, D8, D16). -/
def Obligations.PushFaults : Prop :=
  (∀ (s : State) (a : Byte), 8 ≤ a.toNat → TakesFault s (exec (.push a) s) .badRegister (some 0x45) a.toNat) ∧
  (∀ (s : State) (a : Byte), a.toNat < 8 → s.reg SP = 0 →
    TakesFault s (exec (.push a) s) .stackOutOfBounds (some 0x45) (-1)) ∧
  (∀ s : State, s.run = .running → s.pc.toNat = 255 → s.mem.read s.pc.toNat = 0x45 →
    TakesFault s (step s) .fetchOutOfBounds (some 0x45) 256)

/-- POP: the register gets M[x[7]], then x[7] increases by 1; POP(R7) leaves M[old SP] + 1 (decisions D8, D10).
R191 (spec decisions D8, D10, D24; log entry 12). -/
def Obligations.PopLoadsFromTheStackPointer : Prop :=
  (∀ a : Byte, encode (.pop a) = [0x46, a]) ∧
  ∀ (s : State) (a : Byte) (d : Reg), a.toNat = d.val →
    popAddress s = (s.reg SP).toNat ∧
    (d ≠ SP → (s.reg SP).toNat < 255 →
      ∃ t, exec (.pop a) s = .next t ∧ t.reg d = s.mem.read (popAddress s) ∧ (t.reg SP).toNat = (s.reg SP).toNat + 1 ∧
        RegsKept [d, SP] s t ∧ MemKept s t ∧ ControlKept s t ∧ t.pc = s.pc + 2) ∧
    (d = SP → (s.mem.read (popAddress s)).toNat < 255 →
      ∃ t, exec (.pop a) s = .next t ∧ (t.reg SP).toNat = (s.mem.read (popAddress s)).toNat + 1 ∧
        RegsKept [SP] s t ∧ MemKept s t ∧ ControlKept s t ∧ t.pc = s.pc + 2)

/-- POP faults: BAD_REGISTER first, then STACK_OUT_OF_BOUNDS with addr 256; a cut off POP is a fetch fault (decisions D5, D8, D16).
R191, R302 (spec decisions D5, D8, D16). -/
def Obligations.PopFaults : Prop :=
  (∀ (s : State) (a : Byte), 8 ≤ a.toNat → TakesFault s (exec (.pop a) s) .badRegister (some 0x46) a.toNat) ∧
  (∀ (s : State) (a : Byte), a.toNat < 7 → s.reg SP = 0xFF →
    TakesFault s (exec (.pop a) s) .stackOutOfBounds (some 0x46) 256) ∧
  (∀ s : State, s.mem.read (popAddress s) = 0xFF → TakesFault s (exec (.pop 7) s) .stackOutOfBounds (some 0x46) 256) ∧
  (∀ s : State, s.run = .running → s.pc.toNat = 255 → s.mem.read s.pc.toNat = 0x46 →
    TakesFault s (step s) .fetchOutOfBounds (some 0x46) 256)

/-- ADD: x[a] becomes (x[a] + x[b]) mod 256.
R200 (the opcode byte is spec decision D1, BAD_REGISTER D5, the fetch bound D2 and D3). -/
def Obligations.AddIsModulo256 : Prop :=
  (∀ a b : Byte, encode (.add a b) = [0xA0, a, b]) ∧
  (∀ (s : State) (a b : Byte) (d r : Reg), a.toNat = d.val → b.toNat = r.val →
    ∃ t, exec (.add a b) s = .next t ∧ (t.reg d).toNat = ((s.reg d).toNat + (s.reg r).toNat) % 256 ∧
      RegsKept [d] s t ∧ MemKept s t ∧ ControlKept s t ∧ t.pc = s.pc + 3) ∧
  (∀ (s : State) (a b : Byte), 8 ≤ a.toNat → TakesFault s (exec (.add a b) s) .badRegister (some 0xA0) a.toNat) ∧
  (∀ (s : State) (a b : Byte), a.toNat < 8 → 8 ≤ b.toNat →
    TakesFault s (exec (.add a b) s) .badRegister (some 0xA0) b.toNat) ∧
  (∀ s : State, s.run = .running → (s.pc.toNat = 254 ∨ s.pc.toNat = 255) → s.mem.read s.pc.toNat = 0xA0 →
    TakesFault s (step s) .fetchOutOfBounds (some 0xA0) 256)

/-- SUB: x[a] becomes (x[a] - x[b]) mod 256, the mathematical remainder.
R201 (the opcode byte is spec decision D1, BAD_REGISTER D5, the fetch bound D2 and D3). -/
def Obligations.SubIsModulo256 : Prop :=
  (∀ a b : Byte, encode (.sub a b) = [0xA1, a, b]) ∧
  (∀ (s : State) (a b : Byte) (d r : Reg), a.toNat = d.val → b.toNat = r.val →
    ∃ t, exec (.sub a b) s = .next t ∧ ((t.reg d).toNat : Int) = ((s.reg d).toNat - (s.reg r).toNat : Int) % 256 ∧
      RegsKept [d] s t ∧ MemKept s t ∧ ControlKept s t ∧ t.pc = s.pc + 3) ∧
  (∀ (s : State) (a b : Byte), 8 ≤ a.toNat → TakesFault s (exec (.sub a b) s) .badRegister (some 0xA1) a.toNat) ∧
  (∀ (s : State) (a b : Byte), a.toNat < 8 → 8 ≤ b.toNat →
    TakesFault s (exec (.sub a b) s) .badRegister (some 0xA1) b.toNat) ∧
  (∀ s : State, s.run = .running → (s.pc.toNat = 254 ∨ s.pc.toNat = 255) → s.mem.read s.pc.toNat = 0xA1 →
    TakesFault s (step s) .fetchOutOfBounds (some 0xA1) 256)

/-- MUL: x[a] becomes (x[a] * x[b]) mod 256.
R202 (the opcode byte is spec decision D1, BAD_REGISTER D5, the fetch bound D2 and D3). -/
def Obligations.MulIsModulo256 : Prop :=
  (∀ a b : Byte, encode (.mul a b) = [0xA2, a, b]) ∧
  (∀ (s : State) (a b : Byte) (d r : Reg), a.toNat = d.val → b.toNat = r.val →
    ∃ t, exec (.mul a b) s = .next t ∧ (t.reg d).toNat = ((s.reg d).toNat * (s.reg r).toNat) % 256 ∧
      RegsKept [d] s t ∧ MemKept s t ∧ ControlKept s t ∧ t.pc = s.pc + 3) ∧
  (∀ (s : State) (a b : Byte), 8 ≤ a.toNat → TakesFault s (exec (.mul a b) s) .badRegister (some 0xA2) a.toNat) ∧
  (∀ (s : State) (a b : Byte), a.toNat < 8 → 8 ≤ b.toNat →
    TakesFault s (exec (.mul a b) s) .badRegister (some 0xA2) b.toNat) ∧
  (∀ s : State, s.run = .running → (s.pc.toNat = 254 ∨ s.pc.toNat = 255) → s.mem.read s.pc.toNat = 0xA2 →
    TakesFault s (step s) .fetchOutOfBounds (some 0xA2) 256)

/-- INC: x[a] becomes (x[a] + 1) mod 256.
R203 (the opcode byte is spec decision D1, BAD_REGISTER D5, the fetch bound D2 and D3). -/
def Obligations.IncIsModulo256 : Prop :=
  (∀ a : Byte, encode (.inc a) = [0x65, a]) ∧
  (∀ (s : State) (a : Byte) (d : Reg), a.toNat = d.val →
    ∃ t, exec (.inc a) s = .next t ∧ (t.reg d).toNat = ((s.reg d).toNat + 1) % 256 ∧
      RegsKept [d] s t ∧ MemKept s t ∧ ControlKept s t ∧ t.pc = s.pc + 2) ∧
  (∀ (s : State) (a : Byte), 8 ≤ a.toNat → TakesFault s (exec (.inc a) s) .badRegister (some 0x65) a.toNat) ∧
  (∀ s : State, s.run = .running → s.pc.toNat = 255 → s.mem.read s.pc.toNat = 0x65 →
    TakesFault s (step s) .fetchOutOfBounds (some 0x65) 256)

/-- DEC: x[a] becomes (x[a] - 1) mod 256.
R204 (the opcode byte is spec decision D1, BAD_REGISTER D5, the fetch bound D2 and D3). -/
def Obligations.DecIsModulo256 : Prop :=
  (∀ a : Byte, encode (.dec a) = [0x66, a]) ∧
  (∀ (s : State) (a : Byte) (d : Reg), a.toNat = d.val →
    ∃ t, exec (.dec a) s = .next t ∧ ((t.reg d).toNat : Int) = ((s.reg d).toNat - 1 : Int) % 256 ∧
      RegsKept [d] s t ∧ MemKept s t ∧ ControlKept s t ∧ t.pc = s.pc + 2) ∧
  (∀ (s : State) (a : Byte), 8 ≤ a.toNat → TakesFault s (exec (.dec a) s) .badRegister (some 0x66) a.toNat) ∧
  (∀ s : State, s.run = .running → s.pc.toNat = 255 → s.mem.read s.pc.toNat = 0x66 →
    TakesFault s (step s) .fetchOutOfBounds (some 0x66) 256)

/-- The arithmetic results are also the 8-bit two's-complement results (an inference the spec marks as its own).
R205's derived remark. -/
def Obligations.ArithmeticIsAlsoTwosComplement : Prop :=
  ∀ (s : State) (a b : Byte) (d r : Reg), a.toNat = d.val → b.toNat = r.val →
    (∃ t, exec (.add a b) s = .next t ∧ (t.reg d).toInt = ((s.reg d).toInt + (s.reg r).toInt).bmod 256) ∧
    (∃ t, exec (.sub a b) s = .next t ∧ (t.reg d).toInt = ((s.reg d).toInt - (s.reg r).toInt).bmod 256) ∧
    (∃ t, exec (.mul a b) s = .next t ∧ (t.reg d).toInt = ((s.reg d).toInt * (s.reg r).toInt).bmod 256) ∧
    (∃ t, exec (.inc a) s = .next t ∧ (t.reg d).toInt = ((s.reg d).toInt + 1).bmod 256) ∧
    (∃ t, exec (.dec a) s = .next t ∧ (t.reg d).toInt = ((s.reg d).toInt - 1).bmod 256)

/-- LOAD_IMMEDIATE(r, v) then PRINT_REGISTER(r) appends exactly v.
R182 (which the spec derives from R180 and R181). -/
def Obligations.LoadThenPrintOutputsTheValue : Prop :=
  ∀ (s : State) (a v : Byte) (r : Reg), a.toNat = r.val →
    ∃ t u, exec (.ldi a v) s = .next t ∧ exec (.prn a) t = .next u ∧ u.out = s.out ++ [v] ∧ u.reg r = v ∧
      RegsKept [r] s u ∧ MemKept s u ∧ u.run = s.run ∧ u.fault = s.fault ∧ u.pc = s.pc + 5 ∧
      (s.run = .running → encode (.ldi a v) ++ encode (.prn a) <+: codeAt s → runFor 2 s = .next u)

/-- PUSH then POP of the same register restores it and the stack pointer, R7 included.
R192 (derived by the spec from R190 and R191; the R7 case rests on decision D10, log entry 12). -/
def Obligations.PushThenPopIsARoundTrip : Prop :=
  ∀ (s : State) (a : Byte) (r : Reg), s.mem.wf → a.toNat = r.val → 1 ≤ (s.reg SP).toNat →
    ∃ t u, exec (.push a) s = .next t ∧ exec (.pop a) t = .next u ∧ RegsKept [] s u ∧ ControlKept s u ∧
      (∀ p : Nat, (p : Int) = pushAddress s →
        (u.mem.read p).toNat = (if r = SP then (s.reg SP).toNat - 1 else (s.reg r).toNat) ∧
        ∀ q, q ≠ p → u.mem.read q = s.mem.read q)

/-- Memory is reached exactly by the fetch, PUSH at x[7] - 1, POP at x[7] and initialisation.
R64. -/
def Obligations.OnlyPushAndPopAndTheFetchReachMemory : Prop :=
  (∀ s : State, pushAddress s = (s.reg SP).toNat - 1 ∧ popAddress s = (s.reg SP).toNat) ∧
  (∀ (i : Instr) (s t : State), exec i s = .next t →
    ((∀ a, i ≠ .push a) → MemKept s t) ∧ (∀ p : Nat, (p : Int) ≠ pushAddress s → t.mem.read p = s.mem.read p) ∧
    ∀ m : Memory, ((∃ a, i = .pop a) → m.read (popAddress s) = s.mem.read (popAddress s)) →
      ∃ u, exec i { s with mem := m } = .next u ∧ u.regs = t.regs ∧ u.pc = t.pc ∧ ControlKept t u) ∧
  (∀ (s : State) (m : Memory),
    (∀ k, k ≤ operandCount (s.mem.read s.pc.toNat) → m.read (s.pc.toNat + k) = s.mem.read (s.pc.toNat + k)) →
    fetchDecode { s with mem := m } = fetchDecode s) ∧
  ∀ (image : List Byte) (s : State), initialise image = .next s →
    ∀ a, image.length ≤ a → s.mem.read a = State.reset.mem.read a

/-- The output stream grows only by PRINT_REGISTER, one value a step, and no instruction reads it (decision D19).
R32 (spec decision D19; log entry 9). -/
def Obligations.OutputGrowsOnlyByPrint : Prop :=
  (∀ s t : State, step s = .next t →
    (t.out = s.out ∧ (s.mem.read s.pc.toNat ≠ opcodeValues.prn ∨ 255 < s.pc.toNat ∨ t.run = .faulted)) ∨
    (s.mem.read s.pc.toNat = opcodeValues.prn ∧ t.run = .running ∧ ∃ r, t.out = s.out ++ [s.reg r])) ∧
  ∀ (i : Instr) (s t : State) (o : List Byte), exec i s = .next t →
    ∃ u, exec i { s with out := o } = .next u ∧ u.regs = t.regs ∧ u.mem = t.mem ∧ u.pc = t.pc ∧ u.run = t.run ∧
      u.fault = t.fault

/-- Any byte PUSH stores in the next instruction is what the next step fetches, as opcode or operand; its own operand is not re-read (decision D17).
R75, R411, R149 (spec decision D17, log entry 18). PUSH(R7) stores the decremented pointer by decision D10 (log entry 12);
the pc + 3 after the HALT rests on decision D14 (log entry 13), and the fetch past 255 on D2 and D3 (log entry 11). Canonical
memory is the model's (log entry 3). -/
def Obligations.NextFetchSeesThePushedByte : Prop :=
  ∀ (s : State) (a : Byte) (r : Reg), s.run = .running → s.mem.wf → a.toNat = r.val → encode (.push a) <+: codeAt s →
    (∀ k : Nat, pushAddress s = s.pc.toNat + 2 + k →
      ∃ t, step s = .next t ∧ t.run = .running ∧ t.pc.toNat = s.pc.toNat + 2 ∧ (t.reg SP).toNat = s.pc.toNat + 2 + k ∧
        (r ≠ SP → t.reg r = s.reg r) ∧ t.mem.fetch (t.pc.toNat + k) = some (t.reg r) ∧
        (k = 0 → ¬ registered (t.reg r) → TakesFault t (step t) .decodeError (some (t.reg r)) t.pc.toNat) ∧
        (k = 0 → registered (t.reg r) → 255 < t.pc.toNat + operandCount (t.reg r) →
          TakesFault t (step t) .fetchOutOfBounds (some (t.reg r)) 256) ∧
        (registered (t.mem.read t.pc.toNat) → t.pc.toNat + operandCount (t.mem.read t.pc.toNat) ≤ 255 →
          ∃ i, step t = exec i t ∧ opcodeOf i = t.mem.read t.pc.toNat ∧
            (k ≤ operandCount (t.mem.read t.pc.toNat) → (encode i)[k]? = some (t.reg r))) ∧
        (k = 0 → t.reg r = opcodeValues.hlt →
          ∃ u, runFor 2 s = .next u ∧ u.run = .halted ∧ u.pc.toNat = s.pc.toNat + 3)) ∧
    (pushAddress s = s.pc.toNat + 1 →
      ∃ t, step s = .next t ∧ t.run = .running ∧ t.mem.read (s.pc.toNat + 1) = t.reg r ∧ (r ≠ SP → t.reg r = s.reg r))

/-- After any sequence of writes, each address reads the value last written to it, or what it read before.
R73, at the level of the memory operations. -/
def Obligations.ReadsSeeTheLatestWrite : Prop :=
  ∀ (m : Memory) (ws : List (Nat × Byte)) (a : Nat), m.wf → (∀ w ∈ ws, w.1 < 256) →
    (ws.foldl (fun m' w => m'.write w.1 w.2) m).read a =
      match ws.reverse.find? (fun w => w.1 = a) with
      | some w => w.2
      | none => m.read a

/-- Two canonical memories that read alike at every address are equal data (the model's form, log entry 3).
The model's canonical form (log entry 3) loses nothing: memory is the 256 values of R60. -/
def Obligations.CanonicalMemoriesThatReadAlikeAreEqual : Prop :=
  ∀ m n : Memory, m.wf → n.wf → (∀ a, a < 256 → m.read a = n.read a) → m = n

/-- The invariant holds at reset and after every initialisation (its canonical memory is the model's, log entry 3).
R40 to R45, R400 (spec decisions D4, D6, D15); that memory is canonical is the model's choice, log entry 3. -/
def Obligations.ResetAndInitialStatesMeetTheInvariant : Prop :=
  State.reset.Inv ∧ ∀ (image : List Byte) (s : State), initialise image = .next s → s.Inv

/-- Every step keeps the invariant: canonical memory, pc at most 256, a legal fault record exactly in FAULTED.
R26, R30, R31, R148, R300 (spec decisions D4, D6, D15; canonical memory is the model's, log entry 3). -/
def Obligations.EveryStepKeepsTheInvariant : Prop :=
  ∀ s t : State, s.Inv → step s = .next t → t.Inv

/-- From every RUNNING state the run ends, HALTED or FAULTED, within 257 - pc steps (one step if pc is above 255).
R151, R152 (derived by the spec from R141, R146 and R27). -/
def Obligations.EveryRunEnds : Prop :=
  (∀ s : State, s.run = .running →
    ∃ k t, 1 ≤ k ∧ k ≤ max 1 (257 - s.pc.toNat) ∧ runFor k s = .next t ∧ t.ended ∧ (exitStatus t).isSome) ∧
  ∀ (image : List Byte) (s : State), initialise image = .next s →
    ∃ k t, k ≤ 257 ∧ runFor k s = .next t ∧ t.ended

/-- A run in which no fault is raised ends normally, by HALT, within 257 steps.
R151, R152: HALTED is the normal termination, FAULTED the error termination. -/
def Obligations.RunWithoutFaultHalts : Prop :=
  ∀ s : State, s.run = .running → (∀ k t, runFor k s = .next t → t.Safe) → ∃ k t, k ≤ 257 ∧ HaltsIn k s t

/-- The end of a run is unique: once HALTED or FAULTED no more steps give a state (stop names: log entry 5).
R304, R316 (for FAULTED spec decision D15; the stops' names are the model's, log entry 5). -/
def Obligations.EndedRunsStayEnded : Prop :=
  ∀ (s t : State) (k j : Nat), runFor k s = .next t → t.ended → k < j →
    runFor j s = .fault (if t.run = .halted then Fault.haltedTakesNoStep else Fault.faultedTakesNoStep)

/-- In every reachable state the exit status is nonzero exactly after a fault, zero exactly after HALT, open only in value (decision D20).
R321, R30, R31 (spec decision D20; log entry 8). -/
def Obligations.ExitStatusSaysHowTheRunEnded : Prop :=
  ∀ s : State, Reachable s →
    (exitStatus s = none ↔ s.run = .running) ∧ (exitStatus s = some 0 ↔ s.run = .halted) ∧
    ((∃ n, n ≠ 0 ∧ exitStatus s = some n) ↔ s.run = .faulted) ∧ (s.fault.isSome ↔ s.run = .faulted)

/-- The host's text of a value: decimal digits, no leading zeros, one line end (general knowledge, log entry 9).
R320 (spec decision D19; no leading zeros and the line end are general knowledge, G6; log entry 9). -/
def Obligations.PrintedTextIsTheDecimalValue : Prop :=
  (∀ v : Byte, decimalDigits v ≠ [] ∧ (∀ d ∈ decimalDigits v, d ≤ 9) ∧ (decimalDigits v).foldl (fun n d => 10 * n + d) 0 = v.toNat ∧
    ((decimalDigits v).head? = some 0 → v = 0 ∧ (decimalDigits v).length = 1)) ∧
  renderOutput [] = [] ∧
  ∀ (v : Byte) (out : List Byte), renderOutput (out ++ [v]) =
    renderOutput out ++ (decimalDigits v).map (fun d => Char.ofNat (48 + d)) ++ ['\n']
end

