-- ==== Sys2Proof/Laws/Decode.lean ====
section
/-! SUPPORT. The opcode bytes, the handler table and what decoding can answer, said once. -/

namespace Sys2Proof

@[simp] theorem lengthOf_hlt : lengthOf opcodeValues.hlt = 1 := by decide
@[simp] theorem lengthOf_ldi : lengthOf opcodeValues.ldi = 3 := by decide
@[simp] theorem lengthOf_prn : lengthOf opcodeValues.prn = 2 := by decide
@[simp] theorem lengthOf_push : lengthOf opcodeValues.push = 2 := by decide
@[simp] theorem lengthOf_pop : lengthOf opcodeValues.pop = 2 := by decide
@[simp] theorem lengthOf_add : lengthOf opcodeValues.add = 3 := by decide
@[simp] theorem lengthOf_sub : lengthOf opcodeValues.sub = 3 := by decide
@[simp] theorem lengthOf_mul : lengthOf opcodeValues.mul = 3 := by decide
@[simp] theorem lengthOf_inc : lengthOf opcodeValues.inc = 2 := by decide
@[simp] theorem lengthOf_dec : lengthOf opcodeValues.dec = 2 := by decide

/-- A byte has no handler exactly when it is none of the assignment's ten (R107). -/
theorem lookupHandler_eq_none_iff (v : OpcodeValues) (op : Byte) : lookupHandler v op = none ↔ op ∉ v.toList := by
  unfold lookupHandler OpcodeValues.toList
  repeat' split
  all_goals simp_all

/-- The handler found for a byte makes an instruction with that opcode byte (R143). -/
theorem opcodeWith_of_lookup {v : OpcodeValues} {op : Byte} {handler : Byte → Byte → Instr}
    (h : lookupHandler v op = some handler) (a b : Byte) : opcodeWith v (handler a b) = op := by
  unfold lookupHandler at h
  repeat' split at h
  all_goals first
    | (cases h; simp_all [opcodeWith])
    | simp at h

/-- The top two bits of a byte as a quotient (R102). -/
theorem operandCount_eq (op : Byte) : operandCount op = op.toNat / 64 := by
  revert op; decide

/-- A missing operand is one the opcode has and the byte source lacks. -/
theorem operandAt_none {op : Byte} {byteAt : Nat → Option Byte} {k : Nat} (h : operandAt op byteAt k = none) :
    k ≤ operandCount op ∧ byteAt k = none := by
  unfold operandAt at h
  split at h
  · exact ⟨‹_›, h⟩
  · simp at h

/-- What decoding can answer (R149): no opcode, an unregistered byte, a first or second operand missing, or the
handler's instruction. -/
theorem decodeFrom_cases (v : OpcodeValues) (byteAt : Nat → Option Byte) :
    (byteAt 0 = none ∧ decodeFrom v byteAt = .noOpcode) ∨
    ∃ op, byteAt 0 = some op ∧
      ((lookupHandler v op = none ∧ decodeFrom v byteAt = .unregistered op) ∨
        ∃ handler, lookupHandler v op = some handler ∧
          ((operandAt op byteAt 1 = none ∧ decodeFrom v byteAt = .missingOperand op 1) ∨
            ∃ a, operandAt op byteAt 1 = some a ∧
              ((operandAt op byteAt 2 = none ∧ decodeFrom v byteAt = .missingOperand op 2) ∨
                ∃ b, operandAt op byteAt 2 = some b ∧ decodeFrom v byteAt = .instr (handler a b)))) := by
  unfold decodeFrom
  cases h0 : byteAt 0 with
  | none => simp
  | some op =>
    cases hh : lookupHandler v op with
    | none => simp [hh]
    | some handler =>
      cases ha : operandAt op byteAt 1 with
      | none => simp [hh, ha]
      | some a => cases hb : operandAt op byteAt 2 <;> simp [hh, ha, hb]

end Sys2Proof
end

