-- ==== Sys2Proof/Laws/Memory.lean ====
section
/-! SUPPORT. Memory: read after write, and that every memory operation keeps the canonical form. -/

namespace Sys2Proof.Machine

@[simp] theorem Memory.read_nil (a : Nat) : Memory.read [] a = Memory.unlisted := rfl

theorem Memory.wf_nil : Memory.wf [] := by simp [Memory.wf]

theorem Memory.wf_tail {c : Host.Cell} {m : Memory} (h : Memory.wf (c :: m)) : Memory.wf m := by
  obtain ⟨hp, hc⟩ := h
  exact ⟨(List.pairwise_cons.mp hp).2, fun d hd => hc d (List.mem_cons_of_mem _ hd)⟩

/-- An address below every listed one reads as unlisted. -/
theorem Memory.read_of_lt {m : Memory} {a : Nat} (h : ∀ c ∈ m, a < c.1) : Memory.read m a = Memory.unlisted := by
  induction m with
  | nil => rfl
  | cons c m ih =>
    have hc := h c (by simp)
    have : a ≠ c.1 := by omega
    simpa [Memory.read, this] using ih fun d hd => h d (List.mem_cons_of_mem _ hd)

/-- An address outside the 256 cells is never listed. -/
theorem Memory.read_outside {m : Memory} (h : m.wf) {a : Nat} (ha : 256 ≤ a) : Memory.read m a = Memory.unlisted := by
  induction m with
  | nil => rfl
  | cons c m ih =>
    have hc := (h.2 c (by simp)).1
    have : a ≠ c.1 := by omega
    simpa [Memory.read, this] using ih (Memory.wf_tail h)

theorem Memory.mem_write {m : Memory} {a : Nat} {v : Byte} {c : Host.Cell} (h : c ∈ Memory.write m a v) :
    c ∈ m ∨ (c = (a, v) ∧ v ≠ Memory.unlisted) := by
  induction m with
  | nil =>
    simp only [Memory.write] at h
    split at h <;> simp_all
  | cons d m ih =>
    obtain ⟨k, w⟩ := d
    simp only [Memory.write] at h
    split at h
    · split at h <;> simp only [List.mem_cons] at h ⊢ <;> tauto
    · split at h
      · split at h <;> simp only [List.mem_cons] at h ⊢ <;> tauto
      · rcases List.mem_cons.mp h with h | h
        · simp [h]
        · rcases ih h with h | h <;> simp [h]

/-- A write keeps the canonical form. -/
theorem Memory.write_wf {m : Memory} (h : m.wf) {a : Nat} (ha : inMemory a) (v : Byte) : (Memory.write m a v).wf := by
  refine ⟨?_, fun c hc => ?_⟩
  · induction m with
    | nil => simp only [Memory.write]; split <;> simp
    | cons d m ih =>
      obtain ⟨k, w⟩ := d
      have hp := List.pairwise_cons.mp h.1
      simp only [Memory.write]
      split
      · split
        · exact h.1
        · refine List.pairwise_cons.mpr ⟨fun c hc => ?_, h.1⟩
          rcases List.mem_cons.mp hc with rfl | hc
          · assumption
          · exact Nat.lt_trans ‹a < k› (hp.1 c hc)
      · split
        · split
          · exact hp.2
          · subst_vars
            exact List.pairwise_cons.mpr ⟨hp.1, hp.2⟩
        · refine List.pairwise_cons.mpr ⟨fun c hc => ?_, ih (Memory.wf_tail h)⟩
          rcases Memory.mem_write hc with hc | ⟨rfl, _⟩
          · exact hp.1 c hc
          · show k < a
            omega
  · rcases Memory.mem_write hc with hc | ⟨rfl, hv⟩
    · exact h.2 c hc
    · exact ⟨ha, hv⟩

/-- Reading the written address gives the value written (R61, R62). -/
@[simp] theorem Memory.read_write_same {m : Memory} (h : m.wf) (a : Nat) (v : Byte) :
    Memory.read (Memory.write m a v) a = v := by
  induction m with
  | nil => by_cases hv : v = Memory.unlisted <;> simp [Memory.write, Memory.read, hv]
  | cons d m ih =>
    obtain ⟨k, w⟩ := d
    have hp := List.pairwise_cons.mp h.1
    simp only [Memory.write]
    split
    · have hak : a ≠ k := by omega
      split
      · have := Memory.read_of_lt (m := m) (a := a) fun c hc => Nat.lt_trans ‹a < k› (hp.1 c hc)
        simp_all [Memory.read]
      · simp [Memory.read]
    · split
      · split
        · have := Memory.read_of_lt (m := m) (a := a) fun c hc => by simpa [‹a = k›] using hp.1 c hc
          simp_all
        · simp [Memory.read]
      · simpa [Memory.read, ‹¬ a = k›] using ih (Memory.wf_tail h)

/-- Every other address reads as before (R62). -/
@[simp] theorem Memory.read_write_ne (m : Memory) {a b : Nat} (v : Byte) (h : b ≠ a) :
    Memory.read (Memory.write m a v) b = Memory.read m b := by
  induction m with
  | nil => by_cases hv : v = Memory.unlisted <;> simp [Memory.write, Memory.read, hv, h]
  | cons d m ih =>
    obtain ⟨k, w⟩ := d
    simp only [Memory.write]
    split
    · split <;> simp [Memory.read, h]
    · split
      · split <;> simp_all [Memory.read]
      · simp only [Memory.read, ih]

/-- Placing bytes keeps the canonical form. -/
theorem Memory.place_wf {m : Memory} (h : m.wf) (a : Nat) (vs : List Byte) : (Memory.place m a vs).wf := by
  induction vs generalizing m a with
  | nil => exact h
  | cons v vs ih =>
    simp only [Memory.place]
    split
    · exact ih (Memory.write_wf h ‹_› v) _
    · exact ih h _

/-- Where the placed bytes lie, and that every other address reads as before. -/
theorem Memory.read_place {m : Memory} (hw : m.wf) {a : Nat} {vs : List Byte} (h : a + vs.length ≤ 256) (b : Nat) :
    Memory.read (Memory.place m a vs) b =
      if h : a ≤ b ∧ b - a < vs.length then vs[b - a]'h.2 else Memory.read m b := by
  induction vs generalizing m a with
  | nil => simp [Memory.place]
  | cons v vs ih =>
    simp only [List.length_cons] at h
    have ha : inMemory a := by unfold inMemory; omega
    simp only [Memory.place, ha, if_true]
    rw [ih (Memory.write_wf hw ha v) (by omega)]
    by_cases hb : b = a
    · subst hb; simp [Memory.read_write_same hw]
    · rw [Memory.read_write_ne _ _ hb]
      by_cases h2 : a + 1 ≤ b ∧ b - (a + 1) < vs.length
      · have e : b - a = (b - (a + 1)) + 1 := by omega
        have h3 : a ≤ b ∧ b - a < (v :: vs).length := by simp only [List.length_cons]; omega
        rw [dif_pos h2, dif_pos h3]
        simp only [e, List.getElem_cons_succ]
      · have h3 : ¬ (a ≤ b ∧ b - a < (v :: vs).length) := by simp only [List.length_cons]; omega
        rw [dif_neg h2, dif_neg h3]

theorem Memory.fetch_some {m : Memory} {a : Nat} (h : inMemory a) : Memory.fetch m a = some (m.read a) := by
  simp [Memory.fetch, h]

theorem Memory.fetch_none {m : Memory} {a : Nat} (h : ¬ inMemory a) : Memory.fetch m a = none := by
  simp [Memory.fetch, h]

end Sys2Proof.Machine
end

