-- ==== Sys2Proof/Laws/State.lean ====
section
/-! SUPPORT. One lemma per field per update of the state, and reading a register after writing one. -/

namespace Sys2Proof.Machine

variable (s : State) (r q : Reg) (v : Byte) (a : Nat) (op : Byte) (f : FaultRecord)

@[simp] theorem setReg_pc : (s.setReg r v).pc = s.pc := rfl
@[simp] theorem setReg_mem : (s.setReg r v).mem = s.mem := rfl
@[simp] theorem setReg_run : (s.setReg r v).run = s.run := rfl
@[simp] theorem setReg_fault : (s.setReg r v).fault = s.fault := rfl
@[simp] theorem setReg_out : (s.setReg r v).out = s.out := rfl

@[simp] theorem store_regs : (s.store a v).regs = s.regs := rfl
@[simp] theorem store_reg : (s.store a v).reg q = s.reg q := rfl
@[simp] theorem store_pc : (s.store a v).pc = s.pc := rfl
@[simp] theorem store_mem : (s.store a v).mem = s.mem.write a v := rfl
@[simp] theorem store_run : (s.store a v).run = s.run := rfl
@[simp] theorem store_fault : (s.store a v).fault = s.fault := rfl
@[simp] theorem store_out : (s.store a v).out = s.out := rfl

@[simp] theorem emit_regs : (s.emit v).regs = s.regs := rfl
@[simp] theorem emit_reg : (s.emit v).reg q = s.reg q := rfl
@[simp] theorem emit_pc : (s.emit v).pc = s.pc := rfl
@[simp] theorem emit_mem : (s.emit v).mem = s.mem := rfl
@[simp] theorem emit_run : (s.emit v).run = s.run := rfl
@[simp] theorem emit_fault : (s.emit v).fault = s.fault := rfl
@[simp] theorem emit_out : (s.emit v).out = s.out ++ [v] := rfl

@[simp] theorem halt_regs : s.halt.regs = s.regs := rfl
@[simp] theorem halt_reg : s.halt.reg q = s.reg q := rfl
@[simp] theorem halt_pc : s.halt.pc = s.pc := rfl
@[simp] theorem halt_mem : s.halt.mem = s.mem := rfl
@[simp] theorem halt_run : s.halt.run = .halted := rfl
@[simp] theorem halt_fault : s.halt.fault = s.fault := rfl
@[simp] theorem halt_out : s.halt.out = s.out := rfl

@[simp] theorem advance_regs : (s.advance op).regs = s.regs := rfl
@[simp] theorem advance_reg : (s.advance op).reg q = s.reg q := rfl
@[simp] theorem advance_pc : (s.advance op).pc = s.pc + BitVec.ofNat 9 (lengthOf op) := rfl
@[simp] theorem advance_mem : (s.advance op).mem = s.mem := rfl
@[simp] theorem advance_run : (s.advance op).run = s.run := rfl
@[simp] theorem advance_fault : (s.advance op).fault = s.fault := rfl
@[simp] theorem advance_out : (s.advance op).out = s.out := rfl

@[simp] theorem enterFault_regs : (s.enterFault f).regs = s.regs := rfl
@[simp] theorem enterFault_reg : (s.enterFault f).reg q = s.reg q := rfl
@[simp] theorem enterFault_pc : (s.enterFault f).pc = s.pc := rfl
@[simp] theorem enterFault_mem : (s.enterFault f).mem = s.mem := rfl
@[simp] theorem enterFault_run : (s.enterFault f).run = .faulted := rfl
@[simp] theorem enterFault_fault : (s.enterFault f).fault = some f := rfl
@[simp] theorem enterFault_out : (s.enterFault f).out = s.out := rfl

@[simp] theorem setReg_reg_same : (s.setReg r v).reg r = v := by
  simp [State.reg, State.setReg]

@[simp] theorem setReg_reg_ne (h : q ≠ r) : (s.setReg r v).reg q = s.reg q := by
  have hne : r.val ≠ q.val := fun e => h (Fin.ext e.symm)
  simp [State.reg, State.setReg, hne]

theorem setReg_reg : (s.setReg r v).reg q = if q = r then v else s.reg q := by
  split
  · subst_vars; simp
  · simp [*]

/-- Two register files that read alike are equal. -/
theorem regs_ext {s t : State} (h : ∀ r, s.reg r = t.reg r) : s.regs = t.regs := by
  apply Vector.ext
  intro i hi
  exact h ⟨i, hi⟩

/-- Two states with equal registers and equal other fields are equal. -/
theorem State.ext_reg {s t : State} (hr : ∀ r, s.reg r = t.reg r) (hpc : s.pc = t.pc) (hm : s.mem = t.mem)
    (hrun : s.run = t.run) (hf : s.fault = t.fault) (ho : s.out = t.out) : s = t := by
  have := regs_ext hr
  cases s; cases t; simp_all

end Sys2Proof.Machine
end

