-- ==== Sys2Proof/Laws/Ops.lean ====
section
/-! SUPPORT. What each shared operation can do, said once: the register check, completing, raising, narrowing. -/

namespace Sys2Proof.Machine

theorem regOperand_some {a : Byte} (h : a.toNat < 8) : regOperand a = some ⟨a.toNat, h⟩ := by
  simp [regOperand, h]

theorem regOperand_none {a : Byte} (h : 8 ≤ a.toNat) : regOperand a = none := by
  simp [regOperand, Nat.not_lt.mpr h]

/-- A byte made from a register's index selects that register. -/
@[simp] theorem regOperand_ofNat (r : Reg) : regOperand (BitVec.ofNat 8 r.val) = some r := by
  have h : (BitVec.ofNat 8 r.val).toNat = r.val := by
    rw [BitVec.toNat_ofNat]; exact Nat.mod_eq_of_lt (by omega)
  have hlt : (BitVec.ofNat 8 r.val).toNat < 8 := by omega
  rw [regOperand_some hlt]
  exact congrArg some (Fin.ext h)

/-- The register check passes exactly on 0 to 7 (R23). -/
theorem regOperand_eq_some_iff {a : Byte} {r : Reg} : regOperand a = some r ↔ a.toNat = r.val := by
  unfold regOperand
  split
  · simp [Fin.ext_iff]
  · simp only [reduceCtorEq, false_iff]; omega

theorem withReg_ok {op a : Byte} {s : State} {k : Reg → Result} {r : Reg} (h : regOperand a = some r) :
    withReg op a s k = k r := by
  simp [withReg, h]

theorem withReg_bad {op a : Byte} {s : State} {k : Reg → Result} (h : 8 ≤ a.toNat) :
    withReg op a s k = raise op .badRegister a.toNat s := by
  simp [withReg, regOperand_none h]

/-- What the register check can lead to: the rest on the selected register, or the fault. -/
theorem withReg_cases (op a : Byte) (s : State) (k : Reg → Result) :
    (∃ r : Reg, a.toNat = r.val ∧ withReg op a s k = k r) ∨
      (8 ≤ a.toNat ∧ withReg op a s k = raise op .badRegister a.toNat s) := by
  by_cases h : a.toNat < 8
  · exact .inl ⟨⟨a.toNat, h⟩, rfl, withReg_ok (regOperand_some h)⟩
  · exact .inr ⟨by omega, withReg_bad (by omega)⟩

/-- If completing answers a next state, it is the handler's state with the pc advanced. -/
theorem complete_next {op : Byte} {s t : State} (h : complete op s = .next t) : t = s.advance op := by
  simpa [complete, eq_comm] using h

/-- If raising answers a next state, it is the state before with the fault entered. -/
theorem raise_next {op : Byte} {c : FaultCause} {a : Int} {s t : State} (h : raise op c a s = .next t) :
    t = s.enterFault { cause := c, fpc := s.pc, opcode := some op, addr := a } := by
  simpa [raise, eq_comm] using h

/-- Narrowing keeps the exact result's remainder modulo 256 (R10, R205). -/
theorem mod256_toNat (e : Int) : ((mod256 e).toNat : Int) = e % 256 := by
  have h := Int.emod_nonneg e (by decide : (256 : Int) ≠ 0)
  simp [mod256, BitVec.toNat_ofInt, h]

/-- A result already in a byte's range is not changed. -/
theorem mod256_of_range {e : Int} (h0 : 0 ≤ e) (h1 : e < 256) : ((mod256 e).toNat : Int) = e := by
  rw [mod256_toNat, Int.emod_eq_of_lt h0 h1]

/-- Initialising answers a state exactly for an image that fits (R400, R401). -/
theorem initialise_cases (image : List Byte) :
    (image.length ≤ 256 ∧ initialise image = .next { State.reset with mem := Memory.place [] 0 image }) ∨
      (256 < image.length ∧ initialise image = .refused .imageTooLong) := by
  unfold initialise
  split
  · exact .inl ⟨‹_›, rfl⟩
  · exact .inr ⟨by omega, rfl⟩

theorem reset_mem_wf : State.reset.mem.wf := Memory.wf_nil

end Sys2Proof.Machine
end

