-- ==== Sys2Proof/Laws/Cycle.lean ====
section
/-! SUPPORT. What the step can do, said once, and that a placed word is what the next step runs. -/

namespace Sys2Proof.Machine

/-- What the fetch and decoder answer (R141 to R144), in terms of the pc, the byte there and its operand count: no
opcode, an unregistered one, an operand past the last cell (which is then address 256), or an instruction with that
opcode byte. -/
theorem fetchDecode_cases (s : State) :
    (255 < s.pc.toNat ∧ fetchDecode s = .noOpcode) ∨
    (s.pc.toNat ≤ 255 ∧ s.mem.read s.pc.toNat ∉ opcodeValues.toList ∧
      fetchDecode s = .unregistered (s.mem.read s.pc.toNat)) ∨
    (s.pc.toNat ≤ 255 ∧ s.mem.read s.pc.toNat ∈ opcodeValues.toList ∧
      255 < s.pc.toNat + operandCount (s.mem.read s.pc.toNat) ∧
      ∃ k, s.pc.toNat + k = 256 ∧ fetchDecode s = .missingOperand (s.mem.read s.pc.toNat) k) ∨
    (s.mem.read s.pc.toNat ∈ opcodeValues.toList ∧ s.pc.toNat + operandCount (s.mem.read s.pc.toNat) ≤ 255 ∧
      ∃ i, opcodeOf i = s.mem.read s.pc.toNat ∧ fetchDecode s = .instr i) := by
  have hN : ∀ op : Byte, op ∈ opcodeValues.toList → operandCount op ≤ 2 := by decide
  have inside : ∀ k, s.pc.toNat + k ≤ 255 → s.mem.fetch (s.pc.toNat + k) ≠ none := fun k hk => by
    rw [Memory.fetch_some (by unfold inMemory; omega)]; simp
  have outside : ∀ k, 255 < s.pc.toNat + k → s.mem.fetch (s.pc.toNat + k) = none := fun k hk =>
    Memory.fetch_none (by unfold inMemory; omega)
  have byte : ∀ {k c}, k ≤ operandCount (s.mem.read s.pc.toNat) →
      operandAt (s.mem.read s.pc.toNat) (fun k => s.mem.fetch (s.pc.toNat + k)) k = some c → s.pc.toNat + k ≤ 255 := by
    intro k c hk hc
    by_contra hn
    simp only [operandAt, hk, if_true, outside k (by omega), reduceCtorEq] at hc
  by_cases hp : s.pc.toNat ≤ 255
  · have h0 : s.mem.fetch (s.pc.toNat + 0) = some (s.mem.read s.pc.toNat) :=
      Memory.fetch_some (by unfold inMemory; omega)
    rcases decodeFrom_cases opcodeValues (fun k => s.mem.fetch (s.pc.toNat + k)) with ⟨h, _⟩ | ⟨op, h, hr⟩
    · rw [h0] at h; simp at h
    · simp only [h0, Option.some.injEq] at h
      subst h
      rcases hr with ⟨h, hd⟩ | ⟨handler, hl, hr⟩
      · exact .inr (.inl ⟨hp, (lookupHandler_eq_none_iff _ _).mp h, hd⟩)
      · have hreg : s.mem.read s.pc.toNat ∈ opcodeValues.toList := by
          by_contra hc
          rw [← lookupHandler_eq_none_iff, hl] at hc
          simp at hc
        have hle := hN _ hreg
        rcases hr with ⟨ha, hdec⟩ | ⟨a, ha, ⟨hb, hdec⟩ | ⟨b, hb, hdec⟩⟩
        · obtain ⟨h1, h2⟩ := operandAt_none ha
          have : ¬ s.pc.toNat + 1 ≤ 255 := fun h => inside 1 h h2
          exact .inr (.inr (.inl ⟨hp, hreg, by omega, 1, by omega, hdec⟩))
        · obtain ⟨h1, h2⟩ := operandAt_none hb
          have : ¬ s.pc.toNat + 2 ≤ 255 := fun h => inside 2 h h2
          have := byte (by omega) ha
          exact .inr (.inr (.inl ⟨hp, hreg, by omega, 2, by omega, hdec⟩))
        · refine .inr (.inr (.inr ⟨hreg, ?_, _, opcodeWith_of_lookup hl a b, hdec⟩))
          by_contra hc
          rcases Nat.lt_or_ge (operandCount (s.mem.read s.pc.toNat)) 2 with h | h
          · have := byte (k := 1) (by omega) ha
            omega
          · have := byte (k := 2) h hb
            omega
  · refine .inl ⟨by omega, ?_⟩
    have h0 : s.mem.fetch (s.pc.toNat + 0) = none := outside 0 (by omega)
    unfold fetchDecode decodeFrom
    beta_reduce
    rw [h0]

theorem step_running {s : State} (h : s.run = .running) : step s = cycle s := by simp [step, h]

theorem step_halted {s : State} (h : s.run = .halted) : step s = .fault .haltedTakesNoStep := by simp [step, h]

theorem step_faulted {s : State} (h : s.run = .faulted) : step s = .fault .faultedTakesNoStep := by simp [step, h]

/-- What a step that answers a next state is: an iteration from RUNNING, whose instruction ran or whose fetch or decoding
raised a fault. -/
theorem step_next_cases {s t : State} (h : step s = .next t) :
    s.run = .running ∧
    ((∃ i, fetchDecode s = .instr i ∧ exec i s = .next t) ∨
      (fetchDecode s = .noOpcode ∧ t = s.enterFault (fetchFault s .fetchOutOfBounds none 0)) ∨
      (∃ op, fetchDecode s = .unregistered op ∧ t = s.enterFault (fetchFault s .decodeError (some op) 0)) ∨
      ∃ op k, fetchDecode s = .missingOperand op k ∧
        t = s.enterFault (fetchFault s .fetchOutOfBounds (some op) k)) := by
  cases hr : s.run with
  | halted => simp [step_halted hr] at h
  | faulted => simp [step_faulted hr] at h
  | running =>
    refine ⟨rfl, ?_⟩
    rw [step_running hr] at h
    unfold cycle at h
    split at h
    · exact .inl ⟨_, ‹_›, h⟩
    · simp only [Host.Outcome.next.injEq] at h; exact .inr (.inl ⟨‹_›, h.symm⟩)
    · simp only [Host.Outcome.next.injEq] at h; exact .inr (.inr (.inl ⟨_, ‹_›, h.symm⟩))
    · simp only [Host.Outcome.next.injEq] at h; exact .inr (.inr (.inr ⟨_, _, ‹_›, h.symm⟩))

/-- Placing the table's word changes memory alone. -/
@[simp] theorem withFetchWord_regs (s : State) (n w : Nat) : (s.withFetchWord n w).regs = s.regs := rfl
@[simp] theorem withFetchWord_pc (s : State) (n w : Nat) : (s.withFetchWord n w).pc = s.pc := rfl
@[simp] theorem withFetchWord_run (s : State) (n w : Nat) : (s.withFetchWord n w).run = s.run := rfl
@[simp] theorem withFetchWord_fault (s : State) (n w : Nat) : (s.withFetchWord n w).fault = s.fault := rfl
@[simp] theorem withFetchWord_out (s : State) (n w : Nat) : (s.withFetchWord n w).out = s.out := rfl

/-- A word the decoder reads an instruction from is fetched and run by the next step, in a RUNNING state with room for
three bytes at the pc. -/
theorem step_withFetchWord {s : State} {n w : Nat} {i : Instr} (hr : s.run = .running) (hw : s.mem.wf)
    (hpc : s.pc.toNat ≤ 253) (hd : decodeTableWord n w = some i) :
    step (s.withFetchWord n w) = exec i (s.withFetchWord n w) := by
  have hdec : decode (tableWordBytes n w) = .instr i := by
    unfold decodeTableWord at hd
    split at hd <;> simp_all
  have w1 := Memory.write_wf hw (show inMemory s.pc.toNat by unfold inMemory; omega) (BitVec.ofNat 8 (w % 2 ^ n))
  have w2 := Memory.write_wf w1 (show inMemory (s.pc.toNat + 1) by unfold inMemory; omega)
    (BitVec.ofNat 8 (w % 2 ^ n / 256))
  have hmem : (s.withFetchWord n w).mem = Memory.write (Memory.write (Memory.write s.mem s.pc.toNat
      (BitVec.ofNat 8 (w % 2 ^ n))) (s.pc.toNat + 1) (BitVec.ofNat 8 (w % 2 ^ n / 256))) (s.pc.toNat + 2)
      (BitVec.ofNat 8 (w % 2 ^ n / 65536)) := by
    have h0 : s.pc.toNat < 256 := by omega
    have h1 : s.pc.toNat + 1 < 256 := by omega
    have h2 : s.pc.toNat + 1 + 1 < 256 := by omega
    simp [State.withFetchWord, placeTableWord, tableWordBytes, Memory.place, h0, h1, h2]
  have hfetch : ∀ k, k < 3 → (s.withFetchWord n w).mem.fetch (s.pc.toNat + k) = (tableWordBytes n w)[k]? := by
    intro k hk
    rw [Memory.fetch_some (by unfold inMemory; omega), hmem]
    rcases k with _ | _ | _ | k
    · simp [tableWordBytes, Memory.read_write_same hw]
    · simp [tableWordBytes, Memory.read_write_same w1]
    · simp [tableWordBytes, Memory.read_write_same w2]
    · omega
  have hfd : fetchDecode (s.withFetchWord n w) = .instr i := by
    rw [← hdec]
    unfold fetchDecode decode decodeWith decodeFrom operandAt
    simp only [withFetchWord_pc, hfetch 0 (by omega), hfetch 1 (by omega), hfetch 2 (by omega)]
  rw [step_running (by simpa using hr), cycle, hfd]

end Sys2Proof.Machine
end

