-- ==== Sys2Proof/Laws/PerInstr.lean ====
section
/-! SUPPORT. The statements made per instruction, one lemma per constructor (LAWS.json): the encoding's length is the one
its opcode byte announces (spec/30_encoding.md R102, R104). -/

namespace Sys2Proof.Laws.EncodedLength

/-- The instruction has as many operand bytes as bits 7:6 of its opcode say. -/
def Statement (i : Instr) : Prop := (encode i).length = lengthOf (opcodeOf i)

theorem hlt : Statement .hlt := by simp [Statement, encode, encodeWith, operandBytes, opcodeOf, opcodeWith]
theorem ldi (a b : Byte) : Statement (.ldi a b) := by simp [Statement, encode, encodeWith, operandBytes, opcodeOf, opcodeWith]
theorem prn (a : Byte) : Statement (.prn a) := by simp [Statement, encode, encodeWith, operandBytes, opcodeOf, opcodeWith]
theorem push (a : Byte) : Statement (.push a) := by simp [Statement, encode, encodeWith, operandBytes, opcodeOf, opcodeWith]
theorem pop (a : Byte) : Statement (.pop a) := by simp [Statement, encode, encodeWith, operandBytes, opcodeOf, opcodeWith]
theorem add (a b : Byte) : Statement (.add a b) := by simp [Statement, encode, encodeWith, operandBytes, opcodeOf, opcodeWith]
theorem sub (a b : Byte) : Statement (.sub a b) := by simp [Statement, encode, encodeWith, operandBytes, opcodeOf, opcodeWith]
theorem mul (a b : Byte) : Statement (.mul a b) := by simp [Statement, encode, encodeWith, operandBytes, opcodeOf, opcodeWith]
theorem inc (a : Byte) : Statement (.inc a) := by simp [Statement, encode, encodeWith, operandBytes, opcodeOf, opcodeWith]
theorem dec (a : Byte) : Statement (.dec a) := by simp [Statement, encode, encodeWith, operandBytes, opcodeOf, opcodeWith]

end Sys2Proof.Laws.EncodedLength
end

