-- ==== Sys2Proof/Laws/Safety.lean ====
section
/-! SUPPORT. The vocabulary of the statements: runs of several steps, the bytes at the pc, and taking a fault. -/

namespace Sys2Proof.Machine

theorem runFor_zero (s : State) : runFor 0 s = .next s := rfl

theorem coreRun_next (M : Host.Core) (k : Nat) {s t : M.State} (h : M.step s = .next t) :
    M.run (k + 1) s = M.run k t := by
  rw [Host.Core.run, h]

theorem coreRun_fault (M : Host.Core) (k : Nat) {s : M.State} {r : M.Fault} (h : M.step s = .fault r) :
    M.run (k + 1) s = .fault r := by
  rw [Host.Core.run, h]

theorem coreRun_refused (M : Host.Core) (k : Nat) {s : M.State} {r : M.Refusal} (h : M.step s = .refused r) :
    M.run (k + 1) s = .refused r := by
  rw [Host.Core.run, h]

theorem runFor_next {k : Nat} {s t : State} (h : step s = .next t) : runFor (k + 1) s = runFor k t :=
  coreRun_next Sys2Proof.core k h

theorem runFor_fault {k : Nat} {s : State} {r : Fault} (h : step s = .fault r) : runFor (k + 1) s = .fault r :=
  coreRun_fault Sys2Proof.core k h

theorem runFor_refused {k : Nat} {s : State} {r : Refusal} (h : step s = .refused r) :
    runFor (k + 1) s = .refused r :=
  coreRun_refused Sys2Proof.core k h

/-- The bytes at the pc, as a list and as the fetch reads them. -/
theorem codeAt_getElem? (s : State) (k : Nat) : (codeAt s)[k]? = s.mem.fetch (s.pc.toNat + k) := by
  unfold codeAt Memory.fetch inMemory
  by_cases h : k < 256 - s.pc.toNat
  · have : s.pc.toNat + k < 256 := by omega
    simp [h, this]
  · have : ¬ s.pc.toNat + k < 256 := by omega
    simp [h, this]

/-- Decoding the bytes at the pc is what the fetch decodes. -/
theorem decode_codeAt (s : State) : decode (codeAt s) = fetchDecode s := by
  unfold decode decodeWith fetchDecode
  congr 1
  funext k
  exact codeAt_getElem? s k

/-- Entering a fault with the pc recorded is taking it. -/
theorem takesFault_enterFault (s : State) (c : FaultCause) (o : Option Byte) (a : Int) :
    TakesFault s (.next (s.enterFault { cause := c, fpc := s.pc, opcode := o, addr := a })) c o a :=
  ⟨_, rfl, rfl, rfl, fun _ => rfl, fun _ => rfl, rfl, rfl⟩

/-- A handler that raises a fault takes it. -/
theorem takesFault_raise (op : Byte) (c : FaultCause) (a : Int) (s : State) :
    TakesFault s (raise op c a s) c (some op) a :=
  takesFault_enterFault s c (some op) a

end Sys2Proof.Machine
end

