-- ==== Sys2Proof/Tests/Slice0.lean ====
section
/-! SUPPORT. Tests: ill-formed terms refused, words written out from the encoding table, one step on small states with
results from spec/95_test_vectors.md, and a witness for the hypotheses of each statement. -/

namespace Sys2Proof.Tests
open Machine

/-! ## WellFormed: an ill-formed term for each check -/

theorem test_wellFormed_rejects_ldi : (Instr.ldi 8 0).wellFormed = false := by decide
theorem test_wellFormed_rejects_prn : (Instr.prn 8).wellFormed = false := by decide
theorem test_wellFormed_rejects_push : (Instr.push 9).wellFormed = false := by decide
theorem test_wellFormed_rejects_pop : (Instr.pop 0xFF).wellFormed = false := by decide
theorem test_wellFormed_rejects_add_a : (Instr.add 8 0).wellFormed = false := by decide
theorem test_wellFormed_rejects_add_b : (Instr.add 0 8).wellFormed = false := by decide
theorem test_wellFormed_rejects_sub_a : (Instr.sub 8 0).wellFormed = false := by decide
theorem test_wellFormed_rejects_sub_b : (Instr.sub 0 8).wellFormed = false := by decide
theorem test_wellFormed_rejects_mul_a : (Instr.mul 8 0).wellFormed = false := by decide
theorem test_wellFormed_rejects_mul_b : (Instr.mul 0 8).wellFormed = false := by decide
theorem test_wellFormed_rejects_inc : (Instr.inc 8).wellFormed = false := by decide
theorem test_wellFormed_rejects_dec : (Instr.dec 0x80).wellFormed = false := by decide
theorem test_wellFormed_accepts : (Instr.ldi 7 0xFF).wellFormed = true ∧ (Instr.add 0 7).wellFormed = true := by decide

/-! ## Decoding: one word per constructor, its bits written out from the table of R106 -/

theorem test_decode_hlt : decode [0b00000001] = .instr .hlt := by decide
theorem test_decode_ldi : decode [0b10000010, 0b00000011, 0b11111111] = .instr (.ldi 3 255) := by decide
theorem test_decode_prn : decode [0b01000111, 0b00000111] = .instr (.prn 7) := by decide
theorem test_decode_push : decode [0b01000101, 0b00000010] = .instr (.push 2) := by decide
theorem test_decode_pop : decode [0b01000110, 0b00000110] = .instr (.pop 6) := by decide
theorem test_decode_add : decode [0b10100000, 0b00000001, 0b00000010] = .instr (.add 1 2) := by decide
theorem test_decode_sub : decode [0b10100001, 0b00000000, 0b00000101] = .instr (.sub 0 5) := by decide
theorem test_decode_mul : decode [0b10100010, 0b00000011, 0b00000100] = .instr (.mul 3 4) := by decide
theorem test_decode_inc : decode [0b01100101, 0b00000010] = .instr (.inc 2) := by decide
theorem test_decode_dec : decode [0b01100110, 0b00000111] = .instr (.dec 7) := by decide

/-- Rejections by name: no byte, V-C7 and V-C8's unregistered bytes, missing operands. -/
theorem test_decode_rejects : decode [] = .noOpcode ∧ decode [0x00] = .unregistered 0x00 ∧
    decode [0xC0, 1, 2] = .unregistered 0xC0 ∧ decode [0xA3, 1, 2] = .unregistered 0xA3 ∧
    decode [0x45] = .missingOperand 0x45 1 ∧ decode [0x82] = .missingOperand 0x82 1 ∧
    decode [0x82, 1] = .missingOperand 0x82 2 := by decide

/-- The table's word: first byte in the low bits, missing operands zero. -/
theorem test_decodeTableWord : decodeTableWord 24 0xFF0382 = some (.ldi 3 0xFF) ∧
    decodeTableWord 8 0xA0 = some (.add 0 0) ∧ decodeTableWord 8 0x00 = none := by decide

/-! ## One step on small states (spec/95_test_vectors.md) -/

/-- A RUNNING state with code at the pc, given first registers and stack pointer; the rest as after reset. -/
def small (pc : Pc) (code : List Byte) (x0 x1 x2 sp : Byte) : State :=
  { State.reset with pc := pc, regs := #v[x0, x1, x2, 0, 0, 0, 0, sp], mem := Memory.place [] pc.toNat code }

/-- Whether the outcome is a next state that passes the check. -/
def nextIs (r : Result) (check : State → Bool) : Bool :=
  match r with
  | .next t => check t
  | .fault _ => false
  | .refused _ => false

/-- Whether the outcome is FAULTED with this record, at the pc the state had. -/
def faultIs (s : State) (c : FaultCause) (o : Option Byte) (a : Int) : Bool :=
  nextIs (step s) fun t => t = { s with run := .faulted, fault := some { cause := c, fpc := s.pc, opcode := o, addr := a } }

-- V-A1, V-A19
theorem test_add_wraps : nextIs (step (small 0x10 [0xA0, 0, 1] 200 100 0 0xF4))
    (fun t => t.reg 0 = 44 && t.reg 1 = 100 && t.pc = 0x13) = true := by decide
theorem test_add_reports_operand_a : faultIs (small 0x10 [0xA0, 0xFF, 8] 0 0 0 0xF4) .badRegister (some 0xA0) 255 = true := by
  decide
-- V-A5, V-A6
theorem test_sub_borrows : nextIs (step (small 0x10 [0xA1, 0, 1] 3 5 0 0xF4)) (fun t => t.reg 0 = 254 && t.pc = 0x13) = true := by
  decide
theorem test_sub_itself : nextIs (step (small 0x10 [0xA1, 1, 1] 0 0x9C 0 0xF4)) (fun t => t.reg 1 = 0) = true := by decide
-- V-A9, V-A8
theorem test_mul_low_byte : nextIs (step (small 0x10 [0xA2, 0, 1] 255 255 0 0xF4)) (fun t => t.reg 0 = 1) = true := by decide
theorem test_mul_overflow : nextIs (step (small 0x10 [0xA2, 0, 1] 16 16 0 0xF4)) (fun t => t.reg 0 = 0) = true := by decide
-- V-A12, V-A14
theorem test_inc_wraps : nextIs (step (small 0x10 [0x65, 2] 0 0 255 0xF4)) (fun t => t.reg 2 = 0 && t.pc = 0x12) = true := by
  decide
theorem test_inc_sp_unchecked : nextIs (step (small 0x10 [0x65, 7] 0 0 0 0xFF)) (fun t => t.reg 7 = 0 && t.run = .running) = true := by
  decide
-- V-A15, V-A16
theorem test_dec_wraps : nextIs (step (small 0x10 [0x66, 2] 0 0 0 0xF4)) (fun t => t.reg 2 = 0xFF) = true := by decide
theorem test_dec_sp_unchecked : nextIs (step (small 0x10 [0x66, 7] 0 0 0 0)) (fun t => t.reg 7 = 0xFF && t.run = .running) = true := by
  decide
-- V-D1, V-D3
theorem test_ldi_loads : nextIs (step (small 0x10 [0x82, 3, 0xFF] 0 0 0 0xF4)) (fun t => t.reg 3 = 0xFF && t.pc = 0x13) = true := by
  decide
theorem test_ldi_bad_register : faultIs (small 0x10 [0x82, 8, 5] 0 0 0 0xF4) .badRegister (some 0x82) 8 = true := by decide
-- V-D5, V-D6
theorem test_prn_sp : nextIs (step (small 0x10 [0x47, 7] 0 0 0 0xF4)) (fun t => t.out = [244] && t.pc = 0x12) = true := by decide
theorem test_prn_bad_register : faultIs (small 0x10 [0x47, 0x80] 0 0 0 0xF4) .badRegister (some 0x47) 128 = true := by decide
-- V-S2, V-S4
theorem test_push_sp : nextIs (step (small 0x10 [0x45, 7] 0 0 0 0xF4)) (fun t => t.reg 7 = 0xF3 && t.mem.read 0xF3 = 0xF3) = true := by
  decide
theorem test_push_below_zero : faultIs (small 0x10 [0x45, 0] 9 0 0 0) .stackOutOfBounds (some 0x45) (-1) = true := by decide
-- V-S10 (the cell read is the POP's own opcode), V-S9
theorem test_pop_sp : nextIs (step (small 0x10 [0x46, 7] 0 0 0 0x10)) (fun t => t.reg 7 = 0x47) = true := by decide
theorem test_pop_past_end : faultIs (small 0x10 [0x46, 0] 0 0 0 0xFF) .stackOutOfBounds (some 0x46) 256 = true := by decide
-- V-C2, V-C1
theorem test_hlt_last_cell : nextIs (step (small 0xFF [0x01] 0 0 0 0xF4)) (fun t => t.run = .halted && t.pc = 256) = true := by decide
theorem test_hlt : nextIs (step (small 0x10 [0x01, 0x47, 0] 0 0 0 0xF4)) (fun t => t.run = .halted && t.pc = 0x11 && t.out = []) = true := by
  decide
-- V-C3, V-C5, V-C6
theorem test_fetch_faults : faultIs (small 0xFE [0x82] 0 0 0 0xF4) .fetchOutOfBounds (some 0x82) 256 = true ∧
    faultIs (small 0xFF [0xC3] 0 0 0 0xF4) .decodeError (some 0xC3) 0xFF = true ∧
    faultIs (small 0x100 [] 0 0 0 0xF4) .fetchOutOfBounds none 0x100 = true := by decide
-- V-S12
theorem test_push_over_own_operand : nextIs (step (small 0x10 [0x45, 0] 0x33 0 0 0x12))
    (fun t => t.reg 7 = 0x11 && t.mem.read 0x11 = 0x33) = true := by decide
/-- A word placed at reset is what the first step runs. -/
theorem test_withFetchWord : nextIs (step (State.reset.withFetchWord 24 0x2A0082))
    (fun t => t.reg 0 = 0x2A && t.pc = 3) = true := by decide
/-- R320's rendering of the values 0, 72 and 255. -/
theorem test_renderOutput : renderOutput [0, 72, 255] = ['0', '\n', '7', '2', '\n', '2', '5', '5', '\n'] := by decide

/-! ## Witnesses: a state and operands that meet each statement's hypotheses, at the boundaries of their ranges -/

theorem test_witness_initialise : ∃ s, initialise [0x01] = .next s := ⟨_, rfl⟩
theorem test_witness_image_lengths : (List.replicate 256 (0x01 : Byte)).length ≤ 256 ∧
    255 < (List.replicate 256 (0x01 : Byte)).length ∧ ([] : List Byte).length ≤ 0 ∧
    256 < (List.replicate 257 (0x01 : Byte)).length := by
  simp only [List.length_replicate, List.length_nil]
  omega
theorem test_witness_valid_opcodes : opcodeValues.Valid ∧ OpcodeValues.Valid { opcodeValues with hlt := 0x00, pop := 0x7F } := by
  decide
theorem test_witness_decoded_bytes : decode [0x45, 0x02, 0xFF] = .instr (.push 2) := by decide
theorem test_witness_unregistered : State.reset.run = .running ∧ State.reset.pc.toNat ≤ 255 ∧
    ¬ registered (State.reset.mem.read State.reset.pc.toNat) ∧
    ((small 0xFF [0xC3] 0 0 0 0).run = .running ∧ (small 0xFF [0xC3] 0 0 0 0).pc.toNat ≤ 255 ∧
      ¬ registered ((small 0xFF [0xC3] 0 0 0 0).mem.read 255)) ∧ 0xC0 ≤ (0xC0 : Byte).toNat := by decide
theorem test_witness_step_runs : (small 0xFF [0x01] 0 0 0 0).run = .running ∧ decode (codeAt (small 0xFF [0x01] 0 0 0 0)) = .instr .hlt ∧
    encode .hlt <+: codeAt (small 0xFF [0x01] 0 0 0 0) := by decide
theorem test_witness_step_runs_three_bytes : decode (codeAt (small 0xFD [0xA0, 1, 2] 0 0 0 0)) = .instr (.add 1 2) ∧
    encode (.add 1 2) <+: codeAt (small 0xFD [0xA0, 1, 2] 0 0 0 0) := by decide
theorem test_witness_run_states : State.reset.run = .running ∧ State.reset.halt.run = .halted ∧
    (State.reset.enterFault (fetchFault State.reset .decodeError (some 0) 0)).run = .faulted := by decide
theorem test_witness_fetch_clauses : 255 < (small 0x100 [] 0 0 0 0).pc.toNat ∧
    (registered ((small 0xFE [0x82] 0 0 0 0).mem.read 0xFE) ∧ 255 < 0xFE + operandCount ((small 0xFE [0x82] 0 0 0 0).mem.read 0xFE)) ∧
    (registered ((small 0xFF [0x01] 0 0 0 0).mem.read 0xFF) ∧ 0xFF + operandCount ((small 0xFF [0x01] 0 0 0 0).mem.read 0xFF) ≤ 255) ∧
    0xFD + operandCount ((small 0xFD [0x82] 0 0 0 0).mem.read 0xFD) ≤ 255 := by decide
theorem test_witness_step_halts : ∃ t, step (small 0xFF [0x01] 0 0 0 0) = .next t ∧ t.run = .halted := ⟨_, rfl, rfl⟩
theorem test_witness_step_goes_on : ∃ t, step (small 0xFD [0xA0, 1, 2] 0 0 0 0) = .next t ∧ t.run = .running ∧ t.pc.toNat = 256 :=
  ⟨_, rfl, rfl, rfl⟩
theorem test_witness_step_faults : ∃ t, step (small 0xFF [0x47] 0 0 0 0) = .next t ∧ t.run = .faulted := ⟨_, rfl, rfl⟩
theorem test_witness_exec_at_two_pcs : (∃ t, exec (.inc 0) State.reset = .next t) ∧
    ∃ u, exec (.inc 0) { State.reset with pc := 511 } = .next u := ⟨⟨_, rfl⟩, ⟨_, rfl⟩⟩
theorem test_witness_ill_and_well_formed : ¬ (Instr.add 0 8).wellFormed ∧ (Instr.push 7).wellFormed := by decide
theorem test_witness_halt_step : (small 0xFF [0x01] 0 0 0 0).run = .running ∧ (small 0xFF [0x01] 0 0 0 0).pc.toNat ≤ 255 ∧
    (small 0xFF [0x01] 0 0 0 0).mem.read 255 = 0x01 := by decide
/-- Register operands: the lowest and highest register, and the lowest and highest byte that names none. -/
theorem test_witness_register_operands : (0 : Byte).toNat = (0 : Reg).val ∧ (7 : Byte).toNat = (7 : Reg).val ∧ 8 ≤ (8 : Byte).toNat ∧
    8 ≤ (255 : Byte).toNat ∧ (7 : Byte).toNat < 8 ∧ (6 : Byte).toNat < 7 := by decide
theorem test_witness_ldi_sp_then_push : ∃ t, exec (.ldi 7 0) State.reset = .next t ∧ (7 : Byte).toNat < 8 := ⟨_, rfl, by decide⟩
/-- For every instruction with operands, a RUNNING state that starts it too near the end of memory. -/
theorem test_witness_cut_off_fetch : (small 0xFF [] 0 0 0 0).run = .running ∧ (small 0xFE [0x82] 0 0 0 0).mem.read 254 = 0x82 ∧
    (small 0xFF [0x82] 0 0 0 0).mem.read 255 = 0x82 ∧ (small 0xFF [0x47] 0 0 0 0).mem.read 255 = 0x47 ∧
    (small 0xFF [0x45] 0 0 0 0).mem.read 255 = 0x45 ∧ (small 0xFF [0x46] 0 0 0 0).mem.read 255 = 0x46 ∧
    (small 0xFE [0xA0] 0 0 0 0).mem.read 254 = 0xA0 ∧ (small 0xFF [0xA0] 0 0 0 0).mem.read 255 = 0xA0 ∧
    (small 0xFE [0xA1] 0 0 0 0).mem.read 254 = 0xA1 ∧ (small 0xFF [0xA1] 0 0 0 0).mem.read 255 = 0xA1 ∧
    (small 0xFE [0xA2] 0 0 0 0).mem.read 254 = 0xA2 ∧ (small 0xFF [0xA2] 0 0 0 0).mem.read 255 = 0xA2 ∧
    (small 0xFF [0x65] 0 0 0 0).mem.read 255 = 0x65 ∧ (small 0xFF [0x66] 0 0 0 0).mem.read 255 = 0x66 := by decide
theorem test_witness_push : (small 0x10 [0x45, 0] 9 0 0 1).mem.wf ∧ (7 : Byte).toNat = SP.val ∧ 1 ≤ ((small 0x10 [0x45, 0] 9 0 0 1).reg SP).toNat ∧
    ((0 : Nat) : Int) = pushAddress (small 0x10 [0x45, 0] 9 0 0 1) ∧ 1 ≤ ((small 0x10 [0x45, 0] 9 0 0 0xFF).reg SP).toNat := by decide
theorem test_witness_push_at_zero : (small 0x10 [0x45, 7] 0 0 0 0).reg SP = 0 := by decide
theorem test_witness_pop : (0 : Reg) ≠ SP ∧ ((small 0x10 [0x46, 0] 0 0 0 0xFE).reg SP).toNat < 255 ∧
    ((small 0x10 [0x46, 7] 0 0 0 0xFF).mem.read (popAddress (small 0x10 [0x46, 7] 0 0 0 0xFF))).toNat < 255 := by decide
theorem test_witness_pop_faults : (small 0x10 [0x46, 0] 0 0 0 0xFF).reg SP = 0xFF ∧
    (small 0x10 [0x46, 7, 0xFF] 0 0 0 0x12).mem.read (popAddress (small 0x10 [0x46, 7, 0xFF] 0 0 0 0x12)) = 0xFF := by decide
theorem test_witness_two_registers : (0 : Byte).toNat = (0 : Reg).val ∧ (7 : Byte).toNat = (7 : Reg).val ∧
    ((0 : Byte).toNat < 8 ∧ 8 ≤ (8 : Byte).toNat) := by decide
theorem test_witness_load_then_print : (small 0xFB [0x82, 3, 0xC8, 0x47, 3] 0 0 0 0).run = .running ∧
    encode (.ldi 3 0xC8) ++ encode (.prn 3) <+: codeAt (small 0xFB [0x82, 3, 0xC8, 0x47, 3] 0 0 0 0) := by decide
theorem test_witness_memory_reach : (∃ t, exec (.pop 0) (small 0x10 [0x46, 0] 0 0 0 0x10) = .next t) ∧
    Memory.read [(0x10, 0x46)] (popAddress (small 0x10 [0x46, 0] 0 0 0 0x10)) = (small 0x10 [0x46, 0] 0 0 0 0x10).mem.read 0x10 ∧
    (∀ a, Instr.pop 0 ≠ .push a) ∧ ((0 : Nat) : Int) ≠ pushAddress (small 0x10 [0x46, 0] 0 0 0 0x10) :=
  ⟨⟨_, rfl⟩, by decide, by simp, by decide⟩
theorem test_witness_next_fetch : (small 0x06 [0x45, 0, 0x47] 1 0 0 9).run = .running ∧ (small 0x06 [0x45, 0, 0x47] 1 0 0 9).mem.wf ∧
    (0 : Reg) ≠ SP ∧ encode (.push 0) <+: codeAt (small 0x06 [0x45, 0, 0x47] 1 0 0 9) ∧
    pushAddress (small 0x06 [0x45, 0, 0x47] 1 0 0 9) = 0x06 + 2 ∧ (small 0x06 [0x45, 0, 0x47] 1 0 0 9).reg 0 = opcodeValues.hlt := by decide
/-- PUSH(R7) onto the next opcode stores 0x08, which is unregistered. -/
theorem test_witness_next_fetch_r7 : (7 : Byte).toNat = SP.val ∧ encode (.push 7) <+: codeAt (small 0x06 [0x45, 7] 0 0 0 9) ∧
    pushAddress (small 0x06 [0x45, 7] 0 0 0 9) = 0x06 + 2 ∧
    nextIs (step (small 0x06 [0x45, 7] 0 0 0 9)) (fun t => t.reg SP = 8 ∧ ¬ registered (t.reg SP)) = true := by decide
/-- The last place where the next opcode can be stored by a PUSH: ADD's byte there needs operands past 255. -/
theorem test_witness_next_fetch_cut_off : encode (.push 0) <+: codeAt (small 0xFC [0x45, 0] 0xA0 0 0 0xFF) ∧
    pushAddress (small 0xFC [0x45, 0] 0xA0 0 0 0xFF) = 0xFC + 2 ∧
    nextIs (step (small 0xFC [0x45, 0] 0xA0 0 0 0xFF))
      (fun t => registered (t.reg 0) ∧ 255 < t.pc.toNat + operandCount (t.reg 0)) = true := by decide
/-- The pushed byte is the first (k = 1) and the second (k = 2) operand of the next instruction, an ADD. -/
theorem test_witness_next_fetch_operands :
    pushAddress (small 0x06 [0x45, 0, 0xA0] 3 0 0 10) = 0x06 + 2 + 1 ∧ pushAddress (small 0x06 [0x45, 0, 0xA0] 3 0 0 11) = 0x06 + 2 + 2 ∧
    nextIs (step (small 0x06 [0x45, 0, 0xA0] 3 0 0 11)) (fun t => registered (t.mem.read t.pc.toNat) ∧
      t.pc.toNat + operandCount (t.mem.read t.pc.toNat) ≤ 255 ∧ 2 ≤ operandCount (t.mem.read t.pc.toNat)) = true := by decide
theorem test_witness_own_operand : (small 0x10 [0x45, 0] 0x33 0 0 0x12).mem.wf ∧
    encode (.push 0) <+: codeAt (small 0x10 [0x45, 0] 0x33 0 0 0x12) ∧ pushAddress (small 0x10 [0x45, 0] 0x33 0 0 0x12) = 0x10 + 1 := by
  decide
theorem test_witness_writes : Memory.wf [(3, 7)] ∧ ∀ w ∈ ([(0, 1), (255, 2), (0, 0)] : List (Nat × Byte)), w.1 < 256 := by decide
theorem test_witness_canonical : Memory.wf [(3, 7)] ∧ Memory.wf (Memory.write (Memory.write [] 3 9) 3 7) ∧
    ∀ a, a < 256 → Memory.read [(3, 7)] a = Memory.read (Memory.write (Memory.write [] 3 9) 3 7) a :=
  ⟨by decide, by decide, fun _ _ => rfl⟩
theorem test_witness_reset_invariant : State.reset.Inv :=
  ⟨Memory.wf_nil, by decide, by decide, fun r h => by simp [State.reset] at h⟩
theorem test_witness_step_from_reset : ∃ t, step State.reset = .next t ∧ t.run = .faulted := ⟨_, rfl, rfl⟩
theorem test_witness_run_without_fault : (small 0 [0x01] 0 0 0 0xF4).run = .running ∧
    ∀ k t, runFor k (small 0 [0x01] 0 0 0 0xF4) = .next t → t.Safe := by
  have hstep : step (small 0 [0x01] 0 0 0 0xF4) = .next ((small 0 [0x01] 0 0 0 0xF4).halt.advance 0x01) := rfl
  refine ⟨rfl, fun k t h => ?_⟩
  match k with
  | 0 => rw [runFor_zero] at h; cases h; decide
  | 1 => rw [runFor_next hstep, runFor_zero] at h; cases h; decide
  | k + 2 => rw [runFor_next hstep, runFor_fault (step_halted rfl)] at h; cases h
theorem test_witness_ended : ∃ t, runFor 1 (small 0 [0x01] 0 0 0 0xF4) = .next t ∧ t.ended ∧ 1 < 2 := ⟨_, rfl, by decide, by decide⟩
theorem test_witness_reachable : Reachable State.reset := .initial (image := []) rfl

end Sys2Proof.Tests
end

section
/-! PROOF. Initialisation: the pc, the stack pointer and the run state (spec/10_state.md R40, R41, R44). -/

namespace Sys2Proof.Machine

/-- An image that is accepted changes the memory of the reset state alone (R400). -/
theorem initialise_next {image : List Byte} {s : State} (h : initialise image = .next s) :
    s = { State.reset with mem := Memory.place [] 0 image } := by
  rcases initialise_cases image with ⟨_, hi⟩ | ⟨_, hi⟩
  · rw [hi] at h
    exact (Host.Outcome.next.inj h).symm
  · simp [hi] at h

@[simp] theorem reset_pc : State.reset.pc = 0 := rfl
@[simp] theorem reset_reg_SP : State.reset.reg SP = 0xF4 := rfl
@[simp] theorem reset_run : State.reset.run = .running := rfl

/-- Settles O1: an accepted image replaces only the memory of the reset state, which holds the three values. -/
theorem initialisationFixesPcStackPointerAndRun : Obligations.InitialisationFixesPcStackPointerAndRun := by
  refine ⟨⟨reset_pc, reset_reg_SP, reset_run⟩, fun image s h => ?_⟩
  obtain rfl := initialise_next h
  exact ⟨reset_pc, congrArg BitVec.toNat reset_reg_SP, reset_run⟩

end Sys2Proof.Machine
end

section
/-! PROOF. What every instruction does to the pc (spec/10_state.md R27): it is read only to be advanced, or recorded by a
fault. The case split over the instructions is made once, in `exec_pcBlind`. -/

namespace Sys2Proof.Machine

/-- The state with another pc. -/
def State.atPc (s : State) (p : Pc) : State := { s with pc := p }

section AtPc
variable (s : State) (p : Pc) (r : Reg)

@[simp] theorem atPc_pc : (s.atPc p).pc = p := rfl
@[simp] theorem atPc_regs : (s.atPc p).regs = s.regs := rfl
@[simp] theorem atPc_reg : (s.atPc p).reg r = s.reg r := rfl
@[simp] theorem atPc_mem : (s.atPc p).mem = s.mem := rfl
@[simp] theorem atPc_run : (s.atPc p).run = s.run := rfl
@[simp] theorem atPc_fault : (s.atPc p).fault = s.fault := rfl
@[simp] theorem atPc_out : (s.atPc p).out = s.out := rfl

end AtPc

/-- `f p` is what a handler of opcode `op` answers on `s` with the pc `p`. At every pc it raises the same fault, or at
every pc it completes with the same state but for the pc: one with run state `run` and the fault record of `s`. -/
def PcBlind (op : Byte) (s : State) (run : RunState) (f : Pc → Result) : Prop :=
  (∃ c addr, ∀ p, f p = raise op c addr (s.atPc p)) ∨
    ∃ s' : State, s'.run = run ∧ s'.fault = s.fault ∧ ∀ p, f p = complete op (s'.atPc p)

section PcBlind
variable {op : Byte} {s : State} {run : RunState}

/-- Raising records an address that may be computed, but not from the pc. -/
theorem pcBlind_raise (c : FaultCause) {addr : Pc → Int} (haddr : ∀ p, addr p = addr s.pc) :
    PcBlind op s run fun p => raise op c (addr p) (s.atPc p) :=
  .inl ⟨c, addr s.pc, fun p => congrArg (raise op c · (s.atPc p)) (haddr p)⟩

/-- Completing with a state that is computed from `s` but not from its pc. -/
theorem pcBlind_complete {g : Pc → State} (hg : ∀ p, g p = (g s.pc).atPc p) (hrun : (g s.pc).run = run)
    (hfault : (g s.pc).fault = s.fault) : PcBlind op s run fun p => complete op (g p) :=
  .inr ⟨g s.pc, hrun, hfault, fun p => congrArg (complete op) (hg p)⟩

/-- The register check looks at the operand byte alone (R23), so it passes at every pc or faults at every pc. -/
theorem pcBlind_withReg (a : Byte) {k : Pc → Reg → Result} (hk : ∀ r, PcBlind op s run fun p => k p r) :
    PcBlind op s run fun p => withReg op a (s.atPc p) (k p) := by
  by_cases ha : a.toNat < 8
  · simpa only [withReg_ok (regOperand_some ha)] using hk ⟨a.toNat, ha⟩
  · simpa only [withReg_bad (Nat.le_of_not_lt ha)] using pcBlind_raise .badRegister fun _ => rfl

/-- A check whose condition does not depend on the pc takes the same branch at every pc. -/
theorem pcBlind_ite {c : Pc → Prop} [∀ p, Decidable (c p)] (hc : ∀ p, c p ↔ c s.pc) {f g : Pc → Result}
    (hf : PcBlind op s run f) (hg : PcBlind op s run g) : PcBlind op s run fun p => if c p then f p else g p := by
  by_cases h : c s.pc
  · simpa only [hc, if_pos h] using hf
  · simpa only [hc, if_neg h] using hg

end PcBlind

theorem arithTwo_pcBlind (op : Byte) (f : Int → Int → Int) (a b : Byte) (s : State) :
    PcBlind op s s.run fun p => arithTwo op f a b (s.atPc p) :=
  pcBlind_withReg a fun _ => pcBlind_withReg b fun _ => pcBlind_complete (fun _ => rfl) rfl rfl

theorem arithOne_pcBlind (op : Byte) (f : Int → Int) (a : Byte) (s : State) :
    PcBlind op s s.run fun p => arithOne op f a (s.atPc p) :=
  pcBlind_withReg a fun _ => pcBlind_complete (fun _ => rfl) rfl rfl

theorem execPush_pcBlind (a : Byte) (s : State) :
    PcBlind opcodeValues.push s s.run fun p => execPush a (s.atPc p) :=
  pcBlind_withReg a fun _ => pcBlind_ite (fun _ => .rfl)
    (pcBlind_raise .stackOutOfBounds fun _ => rfl) (pcBlind_complete (fun _ => rfl) rfl rfl)

theorem execPop_pcBlind (a : Byte) (s : State) :
    PcBlind opcodeValues.pop s s.run fun p => execPop a (s.atPc p) :=
  pcBlind_withReg a fun _ => pcBlind_ite (fun _ => .rfl)
    (pcBlind_raise .stackOutOfBounds fun _ => rfl) (pcBlind_complete (fun _ => rfl) rfl rfl)

/-- No instruction reads the pc as data; HALT alone changes the run state of a completed step. -/
theorem exec_pcBlind (i : Instr) (s : State) :
    PcBlind (opcodeOf i) s (if i = .hlt then .halted else s.run) fun p => exec i (s.atPc p) := by
  cases i with
  | hlt => exact pcBlind_complete (fun _ => rfl) rfl rfl
  | ldi a b => exact pcBlind_withReg a fun _ => pcBlind_complete (fun _ => rfl) rfl rfl
  | prn a => exact pcBlind_withReg a fun _ => pcBlind_complete (fun _ => rfl) rfl rfl
  | push a => exact execPush_pcBlind a s
  | pop a => exact execPop_pcBlind a s
  | add a b => exact arithTwo_pcBlind opcodeValues.add (fun x y => x + y) a b s
  | sub a b => exact arithTwo_pcBlind opcodeValues.sub (fun x y => x - y) a b s
  | mul a b => exact arithTwo_pcBlind opcodeValues.mul (fun x y => x * y) a b s
  | inc a => exact arithOne_pcBlind opcodeValues.inc (fun x => x + 1) a s
  | dec a => exact arithOne_pcBlind opcodeValues.dec (fun x => x - 1) a s

/-- What an instruction's next state is: the state before with a fault entered, or a state with the pc advanced, where
the run state is as before unless the instruction is HALT, and the fault record as before. -/
theorem exec_next_cases {i : Instr} {s t : State} (h : exec i s = .next t) :
    (∃ c addr, t = s.enterFault { cause := c, fpc := s.pc, opcode := some (opcodeOf i), addr := addr }) ∨
      ∃ s' : State, s'.run = (if i = .hlt then .halted else s.run) ∧ s'.fault = s.fault ∧ s'.pc = s.pc ∧
        t = s'.advance (opcodeOf i) := by
  rcases exec_pcBlind i s with ⟨c, addr, hall⟩ | ⟨s', hrun, hfault, hall⟩
  · exact .inl ⟨c, addr, raise_next ((hall s.pc).symm.trans h)⟩
  · exact .inr ⟨s'.atPc s.pc, hrun, hfault, rfl, complete_next ((hall s.pc).symm.trans h)⟩

/-- An instruction run at two pcs does the same to the registers, memory, output and run state, and moves both pcs by the
same distance (R27). -/
theorem exec_at_two_pcs {i : Instr} {s t u : State} {p : Pc} (ht : exec i s = .next t)
    (hu : exec i (s.atPc p) = .next u) :
    u.regs = t.regs ∧ u.mem = t.mem ∧ u.out = t.out ∧ u.run = t.run ∧ u.pc - p = t.pc - s.pc := by
  rcases exec_pcBlind i s with ⟨c, addr, hall⟩ | ⟨s', -, -, hall⟩
  · rw [raise_next ((hall s.pc).symm.trans ht), raise_next ((hall p).symm.trans hu)]
    simp
  · rw [complete_next ((hall s.pc).symm.trans ht), complete_next ((hall p).symm.trans hu)]
    simp [BitVec.add_comm _ (BitVec.ofNat 9 _)]

/-- An instruction is decoded only where all its bytes lie in memory, and it has the opcode byte at the pc. -/
theorem fetchDecode_instr {s : State} {i : Instr} (h : fetchDecode s = .instr i) :
    opcodeOf i = s.mem.read s.pc.toNat ∧ s.pc.toNat + operandCount (s.mem.read s.pc.toNat) ≤ 255 := by
  rcases fetchDecode_cases s with ⟨-, hd⟩ | ⟨-, -, hd⟩ | ⟨-, -, -, _, -, hd⟩ | ⟨-, hN, j, hop, hd⟩
  · simp [hd] at h
  · simp [hd] at h
  · simp [hd] at h
  · obtain rfl : j = i := by simpa [hd] using h
    exact ⟨hop, hN⟩

/-- Below the last cell the 9-bit pc advances as a number, without wrapping (R26). -/
theorem advance_pc_toNat {s : State} {op : Byte} (h : s.pc.toNat + operandCount op ≤ 255) :
    (s.advance op).pc.toNat = s.pc.toNat + (operandCount op + 1) := by
  simp only [advance_pc, lengthOf, BitVec.toNat_add, BitVec.toNat_ofNat]
  omega

/-- What a step does to the pc: a fault leaves it, and a completed instruction moves it by its length. -/
theorem step_pc_cases {s t : State} (h : step s = .next t) :
    (t.run = .faulted ∧ t.pc = s.pc) ∨
      (t.run ≠ .faulted ∧ t.pc.toNat = s.pc.toNat + (operandCount (s.mem.read s.pc.toNat) + 1)) := by
  obtain ⟨hrunning, ⟨i, hd, hi⟩ | ⟨-, rfl⟩ | ⟨_, -, rfl⟩ | ⟨_, _, -, rfl⟩⟩ := step_next_cases h
  · rcases exec_next_cases hi with ⟨_, _, rfl⟩ | ⟨s', hrun, -, hpc, rfl⟩
    · exact .inl ⟨rfl, rfl⟩
    · obtain ⟨hop, hN⟩ := fetchDecode_instr hd
      refine .inr ⟨?_, ?_⟩
      · rw [advance_run, hrun, hrunning]
        split <;> simp
      · rw [hop, advance_pc_toNat (by rwa [hpc]), hpc]
  · exact .inl ⟨rfl, rfl⟩
  · exact .inl ⟨rfl, rfl⟩
  · exact .inl ⟨rfl, rfl⟩

/-- Settles O14: the pc's movement from the cases of a step, its not being data from running an instruction at two pcs. -/
theorem pcMovesOnlyByInstructionLength : Obligations.PcMovesOnlyByInstructionLength := by
  refine ⟨fun s t h => ?_, fun i s t u p ht hu => exec_at_two_pcs ht hu⟩
  rcases step_pc_cases h with ⟨hrun, hpc⟩ | ⟨hrun, hpc⟩
  · exact ⟨fun hn => absurd hrun hn, fun _ => hpc⟩
  · exact ⟨fun _ => hpc, fun hf => absurd hf hrun⟩

end Sys2Proof.Machine
end

section
/-! PROOF. Which operations reach memory (spec/20_memory.md R64): PUSH, POP, the fetch and initialisation. The case split
over the instructions is made once, in `exec_memBlind`. -/

namespace Sys2Proof

/-- Decoding asks for the opcode byte and for the operand bytes that opcode announces, and for no other (R149). -/
theorem decodeFrom_congr (v : OpcodeValues) {f g : Nat → Option Byte} (h0 : f 0 = g 0)
    (h : ∀ op, g 0 = some op → ∀ k ≤ operandCount op, f k = g k) : decodeFrom v f = decodeFrom v g := by
  unfold decodeFrom
  rw [h0]
  cases hg : g 0 with
  | none => rfl
  | some op =>
    have hat : ∀ k, operandAt op f k = operandAt op g k := fun k => by
      unfold operandAt
      split
      · exact h op hg k ‹_›
      · rfl
    simp only [hat]

end Sys2Proof

namespace Sys2Proof.Machine

/-- The fetch reads what a plain read does, so contents that read alike at an address fetch alike there. -/
theorem Memory.fetch_congr {m n : Memory} {a : Nat} (h : m.read a = n.read a) : m.fetch a = n.fetch a := by
  unfold Memory.fetch
  rw [h]

/-- A byte that is fetched is the one read there (R61). -/
theorem Memory.read_of_fetch {m : Memory} {a : Nat} {v : Byte} (h : m.fetch a = some v) : m.read a = v := by
  unfold Memory.fetch at h
  split at h
  · exact Option.some.inj h
  · simp at h

/-- The state with other memory contents. -/
def State.withMem (s : State) (m : Memory) : State := { s with mem := m }

section WithMem
variable (s : State) (m : Memory) (r : Reg)

@[simp] theorem withMem_mem : (s.withMem m).mem = m := rfl
@[simp] theorem withMem_regs : (s.withMem m).regs = s.regs := rfl
@[simp] theorem withMem_reg : (s.withMem m).reg r = s.reg r := rfl
@[simp] theorem withMem_pc : (s.withMem m).pc = s.pc := rfl
@[simp] theorem withMem_run : (s.withMem m).run = s.run := rfl
@[simp] theorem withMem_fault : (s.withMem m).fault = s.fault := rfl
@[simp] theorem withMem_out : (s.withMem m).out = s.out := rfl
@[simp] theorem pushAddress_withMem : pushAddress (s.withMem m) = pushAddress s := rfl
@[simp] theorem popAddress_withMem : popAddress (s.withMem m) = popAddress s := rfl

end WithMem

/-- The contents `m` hold the byte that the instruction loads from `s`, if it loads one: POP's (R191). -/
def LoadsAlike (i : Instr) (s : State) (m : Memory) : Prop :=
  (∃ a, i = .pop a) → m.read (popAddress s) = s.mem.read (popAddress s)

/-- What an instruction may do to the memory contents: nothing, or PUSH's store of one byte at its address (R190). -/
def MayUpdate (i : Instr) (s : State) (w : Memory → Memory) : Prop :=
  w = id ∨ (∃ a, i = .push a) ∧ ∃ (p : Nat) (v : Byte), (p : Int) = pushAddress s ∧ w = fun m => m.write p v

/-- `f m` is what the handler of `i` answers on `s` with the memory contents `m`. Under all contents that load alike it
answers the same next state, but for the memory, which it updates in a way allowed to the instruction. -/
def MemBlind (i : Instr) (s : State) (f : Memory → Result) : Prop :=
  ∃ (s' : State) (w : Memory → Memory), MayUpdate i s w ∧ ∀ m, LoadsAlike i s m → f m = .next (s'.withMem (w m))

section MemBlind
variable {i : Instr} {s : State} {op : Byte}

/-- Raising records an address that is the same under all contents that load alike. -/
theorem memBlind_raise (c : FaultCause) {addr : Memory → Int}
    (haddr : ∀ m, LoadsAlike i s m → addr m = addr s.mem) :
    MemBlind i s fun m => raise op c (addr m) (s.withMem m) :=
  ⟨s.enterFault { cause := c, fpc := s.pc, opcode := some op, addr := addr s.mem }, id, .inl rfl,
    fun m hm => congrArg (raise op c · (s.withMem m)) (haddr m hm)⟩

/-- Completing with the memory as it was. -/
theorem memBlind_complete {g : Memory → State} (hg : ∀ m, LoadsAlike i s m → g m = (g s.mem).withMem m) :
    MemBlind i s fun m => complete op (g m) :=
  ⟨(g s.mem).advance op, id, .inl rfl, fun m hm => congrArg (complete op) (hg m hm)⟩

/-- Completing a PUSH, which has stored `v` at its address. -/
theorem memBlind_complete_store {a : Byte} {t : State} (v : Byte) (h : 0 ≤ pushAddress s) :
    MemBlind (.push a) s fun m => complete op ((t.withMem m).store (pushAddress s).toNat v) :=
  ⟨t.advance op, _, .inr ⟨⟨a, rfl⟩, _, v, Int.toNat_of_nonneg h, rfl⟩, fun _ _ => rfl⟩

/-- The register check looks at the operand byte alone (R23). -/
theorem memBlind_withReg (a : Byte) {k : Memory → Reg → Result} (hk : ∀ r, MemBlind i s fun m => k m r) :
    MemBlind i s fun m => withReg op a (s.withMem m) (k m) := by
  by_cases ha : a.toNat < 8
  · simpa only [withReg_ok (regOperand_some ha)] using hk ⟨a.toNat, ha⟩
  · simpa only [withReg_bad (Nat.le_of_not_lt ha)] using memBlind_raise .badRegister fun _ _ => rfl

/-- A check that comes out the same under all contents that load alike takes the same branch under all of them. Each branch
may use that it is the one taken. -/
theorem memBlind_ite {c : Memory → Prop} [∀ m, Decidable (c m)] (hc : ∀ m, LoadsAlike i s m → (c m ↔ c s.mem))
    {f g : Memory → Result} (hf : c s.mem → MemBlind i s f) (hg : ¬ c s.mem → MemBlind i s g) :
    MemBlind i s fun m => if c m then f m else g m := by
  by_cases h : c s.mem
  · obtain ⟨s', w, hw, hall⟩ := hf h
    exact ⟨s', w, hw, fun m hm => (if_pos ((hc m hm).mpr h)).trans (hall m hm)⟩
  · obtain ⟨s', w, hw, hall⟩ := hg h
    exact ⟨s', w, hw, fun m hm => (if_neg fun hn => h ((hc m hm).mp hn)).trans (hall m hm)⟩

end MemBlind

theorem arithTwo_memBlind (i : Instr) (op : Byte) (f : Int → Int → Int) (a b : Byte) (s : State) :
    MemBlind i s fun m => arithTwo op f a b (s.withMem m) :=
  memBlind_withReg a fun _ => memBlind_withReg b fun _ => memBlind_complete fun _ _ => rfl

theorem arithOne_memBlind (i : Instr) (op : Byte) (f : Int → Int) (a : Byte) (s : State) :
    MemBlind i s fun m => arithOne op f a (s.withMem m) :=
  memBlind_withReg a fun _ => memBlind_complete fun _ _ => rfl

/-- PUSH's check, its address and the byte it stores come from the registers. -/
theorem execPush_memBlind (a : Byte) (s : State) : MemBlind (.push a) s fun m => execPush a (s.withMem m) := by
  refine memBlind_withReg a fun r => memBlind_ite (fun _ _ => .rfl) (fun _ => ?_) fun h => ?_
  · exact memBlind_raise .stackOutOfBounds fun _ _ => rfl
  · exact memBlind_complete_store (t := s.setReg SP (mod256 (pushAddress s)))
      ((s.setReg SP (mod256 (pushAddress s))).reg r) (Int.not_lt.mp h)

/-- POP reads one byte of memory, and with that byte fixed nothing it does depends on memory. -/
theorem execPop_memBlind (a : Byte) (s : State) : MemBlind (.pop a) s fun m => execPop a (s.withMem m) := by
  refine memBlind_withReg a fun d => ?_
  have load : ∀ m, LoadsAlike (.pop a) s m →
      (s.withMem m).setReg d (m.read (popAddress s)) = (s.setReg d (s.mem.read (popAddress s))).withMem m :=
    fun m hm => congrArg ((s.withMem m).setReg d) (hm ⟨a, rfl⟩)
  refine memBlind_ite (fun m hm => ?_) (fun _ => memBlind_raise _ fun m hm => ?_)
    fun _ => memBlind_complete fun m hm => ?_
  all_goals simp only [withMem_mem, popAddress_withMem, load m hm]; rfl

/-- No instruction but PUSH changes memory, none but POP depends on it, and each at its own address. -/
theorem exec_memBlind (i : Instr) (s : State) : MemBlind i s fun m => exec i (s.withMem m) := by
  cases i with
  | hlt => exact memBlind_complete fun _ _ => rfl
  | ldi a b => exact memBlind_withReg a fun _ => memBlind_complete fun _ _ => rfl
  | prn a => exact memBlind_withReg a fun _ => memBlind_complete fun _ _ => rfl
  | push a => exact execPush_memBlind a s
  | pop a => exact execPop_memBlind a s
  | add a b => exact arithTwo_memBlind _ opcodeValues.add (fun x y => x + y) a b s
  | sub a b => exact arithTwo_memBlind _ opcodeValues.sub (fun x y => x - y) a b s
  | mul a b => exact arithTwo_memBlind _ opcodeValues.mul (fun x y => x * y) a b s
  | inc a => exact arithOne_memBlind _ opcodeValues.inc (fun x => x + 1) a s
  | dec a => exact arithOne_memBlind _ opcodeValues.dec (fun x => x - 1) a s

/-- An update allowed to an instruction leaves memory as it was, unless the instruction is a PUSH. -/
theorem MayUpdate.eq_id {i : Instr} {s : State} {w : Memory → Memory} (h : MayUpdate i s w)
    (hi : ∀ a, i ≠ .push a) : w = id := by
  rcases h with h | ⟨⟨a, ha⟩, -⟩
  · exact h
  · exact absurd ha (hi a)

/-- An update allowed to an instruction changes no address but PUSH's. -/
theorem MayUpdate.read_ne {i : Instr} {s : State} {w : Memory → Memory} (h : MayUpdate i s w) (m : Memory) {p : Nat}
    (hp : (p : Int) ≠ pushAddress s) : (w m).read p = m.read p := by
  rcases h with rfl | ⟨-, q, v, hq, rfl⟩
  · rfl
  · exact Memory.read_write_ne m v fun hpq => hp (hpq ▸ hq)

/-- The reach of an instruction into memory: what it may change there, and what it does under other contents. -/
theorem exec_memory_reach {i : Instr} {s t : State} (h : exec i s = .next t) :
    ((∀ a, i ≠ .push a) → MemKept s t) ∧ (∀ p : Nat, (p : Int) ≠ pushAddress s → t.mem.read p = s.mem.read p) ∧
    ∀ m, LoadsAlike i s m → ∃ u, exec i (s.withMem m) = .next u ∧ u.regs = t.regs ∧ u.pc = t.pc ∧ ControlKept t u := by
  obtain ⟨s', w, hw, hall⟩ := exec_memBlind i s
  obtain rfl : t = s'.withMem (w s.mem) := Host.Outcome.next.inj (h.symm.trans (hall s.mem fun _ => rfl))
  refine ⟨fun hi a => ?_, fun p hp => hw.read_ne s.mem hp, fun m hm => ⟨_, hall m hm, rfl, rfl, rfl, rfl, rfl⟩⟩
  rw [hw.eq_id hi]
  rfl

/-- The fetch reads no byte beyond the instruction at the pc. -/
theorem fetchDecode_withMem {s : State} {m : Memory}
    (h : ∀ k ≤ operandCount (s.mem.read s.pc.toNat), m.read (s.pc.toNat + k) = s.mem.read (s.pc.toNat + k)) :
    fetchDecode (s.withMem m) = fetchDecode s := by
  refine decodeFrom_congr opcodeValues (Memory.fetch_congr (h 0 (Nat.zero_le _))) fun op hop k hk => ?_
  have hread : s.mem.read s.pc.toNat = op := Memory.read_of_fetch hop
  exact Memory.fetch_congr (h k (by rwa [hread]))

/-- Initialisation writes only where the image lies (R400). -/
theorem initialise_read_beyond {image : List Byte} {s : State} (h : initialise image = .next s) {a : Nat}
    (ha : image.length ≤ a) : s.mem.read a = State.reset.mem.read a := by
  rcases initialise_cases image with ⟨hlen, -⟩ | ⟨-, hi⟩
  · obtain rfl := initialise_next h
    have hout : ¬ (0 ≤ a ∧ a - 0 < image.length) := by omega
    exact (Memory.read_place Memory.wf_nil (by omega) a).trans (dif_neg hout)
  · simp [hi] at h

/-- Settles O32: an instruction's reach from `exec_memory_reach`, the fetch's from the bytes the decoder asks for, and
initialisation's from where the image lies. -/
theorem onlyPushAndPopAndTheFetchReachMemory : Obligations.OnlyPushAndPopAndTheFetchReachMemory :=
  ⟨fun _ => ⟨rfl, rfl⟩, fun _ _ _ h => exec_memory_reach h, fun _ _ h => fetchDecode_withMem h,
    fun _ _ h _ ha => initialise_read_beyond h ha⟩

end Sys2Proof.Machine
end

section
/-! PROOF. The encoding's lengths and the opcode bytes without a handler (spec/30_encoding.md R102, R107): the ten opcode
bytes all announce at most two operands, so that no byte from 0xC0 on is one of them. -/

namespace Sys2Proof.Machine

/-- An instruction has as many bytes as its opcode byte announces (R102). -/
theorem encode_length (i : Instr) : (encode i).length = lengthOf (opcodeOf i) := by
  cases i with
  | hlt => exact Laws.EncodedLength.hlt
  | ldi a b => exact Laws.EncodedLength.ldi a b
  | prn a => exact Laws.EncodedLength.prn a
  | push a => exact Laws.EncodedLength.push a
  | pop a => exact Laws.EncodedLength.pop a
  | add a b => exact Laws.EncodedLength.add a b
  | sub a b => exact Laws.EncodedLength.sub a b
  | mul a b => exact Laws.EncodedLength.mul a b
  | inc a => exact Laws.EncodedLength.inc a
  | dec a => exact Laws.EncodedLength.dec a

/-- Every instruction's opcode byte has a handler. -/
theorem registered_opcodeOf (i : Instr) : registered (opcodeOf i) := by
  cases i <;> simp [registered, opcodeOf, opcodeWith, OpcodeValues.toList]

/-- No handler has three operands (R102, R106). -/
theorem operandCount_le_two {op : Byte} (h : registered op) : operandCount op ≤ 2 := by
  revert op
  decide

/-- Settles O6: the count as a quotient, the length instruction by instruction, and the bound from the ten opcode bytes. -/
theorem operandCountIsTopTwoBits : Obligations.OperandCountIsTopTwoBits :=
  ⟨operandCount_eq, fun i => ⟨encode_length i, operandCount_le_two (registered_opcodeOf i)⟩⟩

/-- A byte from 0xC0 on has no handler: its top two bits announce three operands (R107). -/
theorem not_registered_of_ge {op : Byte} (h : 0xC0 ≤ op.toNat) : ¬ registered op := fun hr => by
  have hN := operandCount_le_two hr
  rw [operandCount_eq] at hN
  omega

/-- The fetch of a byte without a handler answers that byte, whatever lies behind it (R143). -/
theorem fetchDecode_unregistered {s : State} (hpc : s.pc.toNat ≤ 255) (hop : ¬ registered (s.mem.read s.pc.toNat)) :
    fetchDecode s = .unregistered (s.mem.read s.pc.toNat) := by
  rcases fetchDecode_cases s with ⟨h, -⟩ | ⟨-, -, hd⟩ | ⟨-, hr, -⟩ | ⟨hr, -⟩
  · omega
  · exact hd
  · exact absurd hr hop
  · exact absurd hr hop

/-- A step whose decoding answers an unregistered byte takes DECODE_ERROR at the pc (R143). -/
theorem step_unregistered {s : State} {op : Byte} (hrun : s.run = .running) (hd : fetchDecode s = .unregistered op) :
    TakesFault s (step s) .decodeError (some op) s.pc.toNat := by
  have hstep : step s = .next (s.enterFault (fetchFault s .decodeError (some op) 0)) := by
    rw [step_running hrun, cycle, hd]
  rw [hstep]
  exact takesFault_enterFault s .decodeError (some op) s.pc.toNat

/-- Among the 256 byte values as numbers, those in a list of distinct bytes are as many as the list has. -/
theorem length_filter_range_mem {l : List Byte} (hl : l.Nodup) :
    ((List.range 256).filter fun n => BitVec.ofNat 8 n ∈ l).length = l.length := by
  have hperm : ((List.range 256).filter fun n => BitVec.ofNat 8 n ∈ l).Perm (l.map BitVec.toNat) := by
    refine (List.perm_ext_iff_of_nodup (List.nodup_range.filter _)
      (hl.map fun _ _ => BitVec.eq_of_toNat_eq)).mpr fun n => ?_
    simp only [List.mem_filter, List.mem_range, decide_eq_true_eq, List.mem_map]
    constructor
    · rintro ⟨hn, hmem⟩
      exact ⟨_, hmem, (BitVec.toNat_ofNat n 8).trans (Nat.mod_eq_of_lt hn)⟩
    · rintro ⟨op, hmem, rfl⟩
      exact ⟨op.isLt, by rwa [BitVec.ofNat_toNat, BitVec.setWidth_eq]⟩
  simpa using hperm.length_eq

/-- The bytes without a handler are 246: the ten opcode bytes are distinct (R106, R107). -/
theorem length_filter_not_registered :
    ((List.range 256).filter fun n => ¬ registered (BitVec.ofNat 8 n)).length = 246 := by
  have hten : ((List.range 256).filter fun n => registered (BitVec.ofNat 8 n)).length = 10 :=
    length_filter_range_mem (l := opcodeValues.toList) (by decide)
  have hsum := List.length_eq_length_filter_add (l := List.range 256) fun n => registered (BitVec.ofNat 8 n)
  simp only [List.length_range, hten, ← decide_not] at hsum
  omega

/-- Settles O8: the step from what the fetch answers, the bytes from 0xC0 on from their operand count. -/
theorem unregisteredOpcodeIsADecodeError : Obligations.UnregisteredOpcodeIsADecodeError :=
  ⟨fun _ hrun hpc hop => step_unregistered hrun (fetchDecode_unregistered hpc hop), length_filter_not_registered,
    by decide, fun _ => not_registered_of_ge⟩

end Sys2Proof.Machine
end

section
/-! PROOF. When a step is defined and which run state it answers (spec/40_cycle.md R140, R147): an iteration runs one
instruction or enters a fault, and of the instructions HALT alone leaves RUNNING without a fault. -/

namespace Sys2Proof.Machine

/-- Every instruction answers a next state: raising a fault and completing both do (R145). -/
theorem exec_answers_next (i : Instr) (s : State) : ∃ t, exec i s = .next t := by
  rcases exec_pcBlind i s with ⟨_, _, hall⟩ | ⟨_, -, -, hall⟩
  · exact ⟨_, hall s.pc⟩
  · exact ⟨_, hall s.pc⟩

/-- What a step from RUNNING is: the decoded instruction's, or the fault of a fetch or decoding that gave none (R149). -/
theorem step_running_cases {s : State} (hrun : s.run = .running) :
    (∃ i, fetchDecode s = .instr i ∧ step s = exec i s) ∨
      (∀ i, fetchDecode s ≠ .instr i) ∧ ∃ r, step s = .next (s.enterFault r) := by
  rw [step_running hrun, cycle]
  cases fetchDecode s with
  | instr i => exact .inl ⟨i, rfl, rfl⟩
  | noOpcode => exact .inr ⟨by simp, _, rfl⟩
  | unregistered op => exact .inr ⟨by simp, _, rfl⟩
  | missingOperand op k => exact .inr ⟨by simp, _, rfl⟩

/-- There is a next state exactly in RUNNING (R140). -/
theorem step_answers_next_iff {s : State} : (∃ t, step s = .next t) ↔ s.run = .running := by
  constructor
  · rintro ⟨t, h⟩
    exact (step_next_cases h).1
  · intro hrun
    rcases step_running_cases hrun with ⟨i, -, hstep⟩ | ⟨-, r, hstep⟩
    · rw [hstep]
      exact exec_answers_next i s
    · exact ⟨_, hstep⟩

/-- Settles O10: the step is defined exactly in RUNNING, and there the cases of a step are the statement's. -/
theorem stepIsDefinedExactlyWhenRunning : Obligations.StepIsDefinedExactlyWhenRunning := fun s =>
  ⟨step_answers_next_iff, fun hrun => (step_running_cases hrun).imp_right fun ⟨hnone, r, hstep⟩ =>
    ⟨hnone, s.enterFault r, hstep, enterFault_run ..⟩⟩

/-- No other instruction has HALT's opcode byte (R101, R106). -/
theorem opcodeOf_eq_hlt_iff {i : Instr} : opcodeOf i = opcodeValues.hlt ↔ i = .hlt := by
  cases i <;> simp [opcodeOf, opcodeWith, opcodeValues]

/-- HALT is decoded exactly where its byte is: it has no operand that could lie past the last cell. -/
theorem fetchDecode_eq_hlt_iff {s : State} :
    fetchDecode s = .instr .hlt ↔ s.pc.toNat ≤ 255 ∧ s.mem.read s.pc.toNat = opcodeValues.hlt := by
  constructor
  · intro hd
    obtain ⟨hop, hN⟩ := fetchDecode_instr hd
    exact ⟨by omega, hop.symm⟩
  · rintro ⟨hpc, hop⟩
    have hreg : registered opcodeValues.hlt := registered_opcodeOf .hlt
    have hcount : operandCount opcodeValues.hlt = 0 := by decide
    rcases fetchDecode_cases s with ⟨hout, -⟩ | ⟨-, hun, -⟩ | ⟨-, -, hout, -⟩ | ⟨-, -, i, hi, hd⟩
    · omega
    · exact absurd (hop ▸ hreg) hun
    · rw [hop, hcount] at hout
      omega
    · rw [hd, opcodeOf_eq_hlt_iff.mp (hi.trans hop)]

/-- The run state a step answers, by whether HALT was decoded (R147). -/
theorem step_run_cases {s t : State} (h : step s = .next t) :
    (fetchDecode s = .instr .hlt ∧ t.run = .halted) ∨
      fetchDecode s ≠ .instr .hlt ∧ (t.run = .running ∨ t.run = .faulted ∧ t.fault.isSome) := by
  have hrunning := step_answers_next_iff.mp ⟨t, h⟩
  rcases step_running_cases hrunning with ⟨i, hd, hstep⟩ | ⟨hnone, r, hstep⟩
  · have hi := hstep.symm.trans h
    by_cases hhlt : i = .hlt
    · subst hhlt
      exact .inl ⟨hd, by rw [complete_next hi, advance_run, halt_run]⟩
    · refine .inr ⟨by simpa [hd] using hhlt, ?_⟩
      rcases exec_next_cases hi with ⟨_, _, rfl⟩ | ⟨s', hrun, -, -, rfl⟩
      · exact .inr ⟨rfl, rfl⟩
      · exact .inl (by rw [advance_run, hrun, if_neg hhlt, hrunning])
  · obtain rfl := Host.Outcome.next.inj (hstep.symm.trans h)
    exact .inr ⟨hnone .hlt, .inr ⟨rfl, rfl⟩⟩

/-- Settles O13: by the run state a step answers, and by where HALT is decoded. -/
theorem onlyHaltEntersHalted : Obligations.OnlyHaltEntersHalted := by
  intro s t h
  rw [← fetchDecode_eq_hlt_iff]
  refine ⟨?_, ?_, fun ht u hu => by simp [step_halted ht] at hu⟩
  · rcases step_run_cases h with ⟨hd, hr⟩ | ⟨hd, hr | ⟨hr, -⟩⟩ <;> simp [hd, hr]
  · rcases step_run_cases h with ⟨-, hr⟩ | ⟨-, hr⟩
    · exact fun hn => absurd hr hn
    · exact fun _ => hr

end Sys2Proof.Machine
end

section
/-! PROOF. HALT (spec/41_control.md R170): its state is the one before, halted and advanced past HALT's one byte, and the
step that decodes it is the last. -/

namespace Sys2Proof.Machine

/-- HALT always completes, on the halted state (R170). -/
theorem exec_hlt (s : State) : exec .hlt s = .next (s.halt.advance opcodeValues.hlt) := rfl

/-- Completing HALT moves the pc past its one byte (R146, R170). -/
theorem halt_advance_hlt_pc (s : State) : (s.halt.advance opcodeValues.hlt).pc = s.pc + 1 := by
  rw [advance_pc, lengthOf_hlt, halt_pc]
  rfl

/-- Completing HALT leaves the run HALTED (R147). -/
theorem halt_advance_run (s : State) (op : Byte) : (s.halt.advance op).run = .halted := by
  rw [advance_run, halt_run]

/-- A halted run's exit status is success (R321). -/
theorem exitStatus_of_halted {s : State} (h : s.run = .halted) : exitStatus s = some 0 := by
  rw [exitStatus, h]

/-- Where HALT's byte is at the pc, inside memory, the step is HALT's (R149, R170). -/
theorem step_hlt {s : State} (hrun : s.run = .running) (hpc : s.pc.toNat ≤ 255)
    (hop : s.mem.read s.pc.toNat = opcodeValues.hlt) : step s = exec .hlt s := by
  rw [step_running hrun, cycle, fetchDecode_eq_hlt_iff.mpr ⟨hpc, hop⟩]

/-- Settles O17: the completed state field by field, and the step as HALT's wherever its byte is, address 255 included,
where the 9-bit pc still advances without wrapping. -/
theorem haltStopsTheCycle : Obligations.HaltStopsTheCycle := by
  refine ⟨rfl, fun s => ?_, fun s hrun hpc hop => ?_⟩
  · exact ⟨_, exec_hlt s, halt_advance_run s _, halt_advance_hlt_pc s, fun _ _ => rfl, fun _ => rfl, rfl, rfl,
      exitStatus_of_halted (halt_advance_run s _)⟩
  · have hcount : operandCount opcodeValues.hlt = 0 := by decide
    have hadv : (s.halt.advance opcodeValues.hlt).pc.toNat = s.pc.toNat + 1 := by
      rw [advance_pc_toNat (by rw [halt_pc, hcount]; exact hpc), halt_pc, hcount]
    have hhalted := halt_advance_run s opcodeValues.hlt
    exact ⟨_, (step_hlt hrun hpc hop).trans (exec_hlt s), exec_hlt s, hhalted, hadv,
      fun u hu => by simp [step_halted hhalted] at hu⟩

end Sys2Proof.Machine
end

section
/-! PROOF. LOAD_IMMEDIATE and PRINT_REGISTER (spec/42_data_movement.md R180, R181): each passes the register check and
completes with one write, or raises BAD_REGISTER, and too near the end of memory its fetch faults. -/

namespace Sys2Proof.Machine

/-- The register check takes BAD_REGISTER on a byte that names no register, whatever the handler's rest (R23). -/
theorem takesFault_withReg {op a : Byte} {s : State} {k : Reg → Result} (h : 8 ≤ a.toNat) :
    TakesFault s (withReg op a s k) .badRegister (some op) a.toNat := by
  rw [withReg_bad h]
  exact takesFault_raise op .badRegister a.toNat s

/-- The fetch of an opcode that has a handler, but not all its operands inside memory, misses the one that would lie at
address 256 (R144). -/
theorem fetchDecode_missingOperand {s : State} (hpc : s.pc.toNat ≤ 255) (hreg : registered (s.mem.read s.pc.toNat))
    (hout : 255 < s.pc.toNat + operandCount (s.mem.read s.pc.toNat)) :
    ∃ k, s.pc.toNat + k = 256 ∧ fetchDecode s = .missingOperand (s.mem.read s.pc.toNat) k := by
  rcases fetchDecode_cases s with ⟨h, -⟩ | ⟨-, hun, -⟩ | ⟨-, -, -, hmiss⟩ | ⟨-, hin, -⟩
  · omega
  · exact absurd hreg hun
  · exact hmiss
  · omega

/-- An instruction that would reach past the last cell takes FETCH_OUT_OF_BOUNDS at address 256 (R144). -/
theorem step_missingOperand {s : State} {op : Byte} (hrun : s.run = .running) (hpc : s.pc.toNat ≤ 255)
    (hop : s.mem.read s.pc.toNat = op) (hreg : registered op) (hout : 255 < s.pc.toNat + operandCount op) :
    TakesFault s (step s) .fetchOutOfBounds (some op) 256 := by
  subst hop
  obtain ⟨k, hk, hd⟩ := fetchDecode_missingOperand hpc hreg hout
  have hstep : step s = .next (s.enterFault (fetchFault s .fetchOutOfBounds (some (s.mem.read s.pc.toNat)) k)) := by
    rw [step_running hrun, cycle, hd]
  rw [hstep, fetchFault, hk]
  exact takesFault_enterFault s .fetchOutOfBounds (some (s.mem.read s.pc.toNat)) 256

/-- LOAD_IMMEDIATE into a register completes, R7 included (R180). -/
theorem exec_ldi {a : Byte} {d : Reg} (h : a.toNat = d.val) (b : Byte) (s : State) :
    exec (.ldi a b) s = .next ((s.setReg d b).advance opcodeValues.ldi) :=
  withReg_ok (regOperand_eq_some_iff.mpr h)

/-- PRINT_REGISTER of a register completes (R181). -/
theorem exec_prn {a : Byte} {r : Reg} (h : a.toNat = r.val) (s : State) :
    exec (.prn a) s = .next ((s.emit (s.reg r)).advance opcodeValues.prn) :=
  withReg_ok (regOperand_eq_some_iff.mpr h)

/-- With the stack pointer at 0, PUSH's address is -1 (R190). -/
theorem pushAddress_of_zero {s : State} (h : s.reg SP = 0) : pushAddress s = -1 := by
  rw [pushAddress, h]
  rfl

/-- With the stack pointer at 0, a PUSH of any register takes STACK_OUT_OF_BOUNDS (R190). -/
theorem exec_push_of_zero {p : Byte} {s : State} (hp : p.toNat < 8) (h : s.reg SP = 0) :
    TakesFault s (exec (.push p) s) .stackOutOfBounds (some opcodeValues.push) (-1) := by
  have hexec : exec (.push p) s = raise opcodeValues.push .stackOutOfBounds (-1) s := by
    rw [exec, execPush, withReg_ok (regOperand_some hp), pushAddress_of_zero h, if_pos (by decide)]
  rw [hexec]
  exact takesFault_raise opcodeValues.push .stackOutOfBounds (-1) s

/-- Settles O18: the completed state field by field; R7 set to 0 puts the next PUSH's address at -1. -/
theorem loadImmediateWritesTheByte : Obligations.LoadImmediateWritesTheByte := by
  refine ⟨fun _ _ => rfl, fun s a b d ha => ?_, fun s a b ha => takesFault_withReg ha, fun s t p ht hp => ?_,
    fun s hrun hpc hop => ?_⟩
  · exact ⟨_, exec_ldi ha b s, setReg_reg_same s d b, fun q hq => setReg_reg_ne s d q b (by simpa using hq),
      fun _ => rfl, ⟨rfl, rfl, rfl⟩, congrArg (s.pc + BitVec.ofNat 9 ·) lengthOf_ldi⟩
  · have hsp : (7 : Byte).toNat = SP.val := rfl
    obtain rfl := Host.Outcome.next.inj ((exec_ldi hsp 0 s).symm.trans ht)
    exact exec_push_of_zero hp (setReg_reg_same s SP 0)
  · have hcount : operandCount opcodeValues.ldi = 2 := by decide
    exact step_missingOperand (op := opcodeValues.ldi) hrun (by omega) hop (by decide) (by omega)

/-- Settles O19: the completed state field by field, in which the output alone and the pc differ. -/
theorem printRegisterAppendsTheValue : Obligations.PrintRegisterAppendsTheValue := by
  refine ⟨fun _ => rfl, fun s a r ha => ?_, fun s a ha => takesFault_withReg ha, fun s hrun hpc hop => ?_⟩
  · exact ⟨_, exec_prn ha s, rfl, fun _ _ => rfl, fun _ => rfl, rfl, rfl,
      congrArg (s.pc + BitVec.ofNat 9 ·) lengthOf_prn⟩
  · have hcount : operandCount opcodeValues.prn = 1 := by decide
    exact step_missingOperand (op := opcodeValues.prn) hrun (by omega) hop (by decide) (by omega)

end Sys2Proof.Machine
end

section
/-! PROOF. ADD, SUB, MUL, INC and DEC (spec/44_arithmetic.md R200 to R204). The five are `arithTwo` and `arithOne` with
another operation on integers each, so completing, the register check and the cut-off fetch are shown for those two. -/

namespace Sys2Proof.Machine

/-- A handler that writes one register and completes keeps everything else and moves the pc by the instruction's
length (R27). -/
theorem setReg_advance_frame {op : Byte} {n : Nat} (hlen : lengthOf op = n) (s : State) (d : Reg) (v : Byte) :
    RegsKept [d] s ((s.setReg d v).advance op) ∧ MemKept s ((s.setReg d v).advance op) ∧
      ControlKept s ((s.setReg d v).advance op) ∧ ((s.setReg d v).advance op).pc = s.pc + BitVec.ofNat 9 n :=
  ⟨fun q hq => setReg_reg_ne s d q v (by simpa using hq), fun _ => rfl, ⟨rfl, rfl, rfl⟩,
    congrArg (s.pc + BitVec.ofNat 9 ·) hlen⟩

/-- An operation on two registers writes its result, reduced modulo 256, to the first (R205). -/
theorem arithTwo_ok {a b : Byte} {d r : Reg} (ha : a.toNat = d.val) (hb : b.toNat = r.val) (op : Byte)
    (f : Int → Int → Int) (s : State) :
    arithTwo op f a b s = .next ((s.setReg d (mod256 (f (s.reg d).toNat (s.reg r).toNat))).advance op) := by
  rw [arithTwo, withReg_ok (regOperand_eq_some_iff.mpr ha), withReg_ok (regOperand_eq_some_iff.mpr hb), complete]

/-- An operation on one register writes its result, reduced modulo 256, back to it (R205). -/
theorem arithOne_ok {a : Byte} {d : Reg} (ha : a.toNat = d.val) (op : Byte) (f : Int → Int) (s : State) :
    arithOne op f a s = .next ((s.setReg d (mod256 (f (s.reg d).toNat))).advance op) := by
  rw [arithOne, withReg_ok (regOperand_eq_some_iff.mpr ha), complete]

theorem arithTwo_completes {op : Byte} (hlen : lengthOf op = 3) (f : Int → Int → Int) {a b : Byte} {d r : Reg}
    (ha : a.toNat = d.val) (hb : b.toNat = r.val) (s : State) :
    ∃ t, arithTwo op f a b s = .next t ∧ ((t.reg d).toNat : Int) = f (s.reg d).toNat (s.reg r).toNat % 256 ∧
      RegsKept [d] s t ∧ MemKept s t ∧ ControlKept s t ∧ t.pc = s.pc + 3 := by
  refine ⟨_, arithTwo_ok ha hb op f s, ?_, setReg_advance_frame hlen s d _⟩
  rw [advance_reg, setReg_reg_same, mod256_toNat]

theorem arithOne_completes {op : Byte} (hlen : lengthOf op = 2) (f : Int → Int) {a : Byte} {d : Reg}
    (ha : a.toNat = d.val) (s : State) :
    ∃ t, arithOne op f a s = .next t ∧ ((t.reg d).toNat : Int) = f (s.reg d).toNat % 256 ∧
      RegsKept [d] s t ∧ MemKept s t ∧ ControlKept s t ∧ t.pc = s.pc + 2 := by
  refine ⟨_, arithOne_ok ha op f s, ?_, setReg_advance_frame hlen s d _⟩
  rw [advance_reg, setReg_reg_same, mod256_toNat]

/-- The second operand is checked once the first has passed (R302). -/
theorem arithTwo_badRegister_second {op : Byte} {f : Int → Int → Int} {a b : Byte} {s : State} (ha : a.toNat < 8)
    (hb : 8 ≤ b.toNat) : TakesFault s (arithTwo op f a b s) .badRegister (some op) b.toNat := by
  rw [arithTwo, withReg_ok (regOperand_some ha)]
  exact takesFault_withReg hb

/-- An instruction of `n` bytes that starts less than `n` bytes before the end of memory is cut off (R144). -/
theorem step_cutOff {op : Byte} {n : Nat} (hreg : registered op) (hlen : lengthOf op = n) {s : State}
    (hrun : s.run = .running) (hpc : s.pc.toNat ≤ 255) (hout : 256 < s.pc.toNat + n)
    (hop : s.mem.read s.pc.toNat = op) : TakesFault s (step s) .fetchOutOfBounds (some op) 256 := by
  have hcount : operandCount op + 1 = n := hlen
  exact step_missingOperand hrun hpc hop hreg (by omega)

/-- Settles O24: `arithTwo` with the sum, which is the same on naturals. -/
theorem addIsModulo256 : Obligations.AddIsModulo256 := by
  refine ⟨fun _ _ => rfl, fun s a b d r ha hb => ?_, fun s a b ha => takesFault_withReg ha,
    fun s a b ha hb => arithTwo_badRegister_second ha hb, fun s hrun hpc hop => ?_⟩
  · obtain ⟨t, ht, hval, hframe⟩ := arithTwo_completes lengthOf_add (fun x y => x + y) ha hb s
    exact ⟨t, ht, by exact_mod_cast hval, hframe⟩
  · exact step_cutOff (registered_opcodeOf (.add 0 0)) lengthOf_add hrun (by omega) (by omega) hop

/-- Settles O25: `arithTwo` with the difference. -/
theorem subIsModulo256 : Obligations.SubIsModulo256 := by
  refine ⟨fun _ _ => rfl, fun s a b d r ha hb => ?_, fun s a b ha => takesFault_withReg ha,
    fun s a b ha hb => arithTwo_badRegister_second ha hb, fun s hrun hpc hop => ?_⟩
  · exact arithTwo_completes lengthOf_sub (fun x y => x - y) ha hb s
  · exact step_cutOff (registered_opcodeOf (.sub 0 0)) lengthOf_sub hrun (by omega) (by omega) hop

/-- Settles O26: `arithTwo` with the product, which is the same on naturals. -/
theorem mulIsModulo256 : Obligations.MulIsModulo256 := by
  refine ⟨fun _ _ => rfl, fun s a b d r ha hb => ?_, fun s a b ha => takesFault_withReg ha,
    fun s a b ha hb => arithTwo_badRegister_second ha hb, fun s hrun hpc hop => ?_⟩
  · obtain ⟨t, ht, hval, hframe⟩ := arithTwo_completes lengthOf_mul (fun x y => x * y) ha hb s
    exact ⟨t, ht, by exact_mod_cast hval, hframe⟩
  · exact step_cutOff (registered_opcodeOf (.mul 0 0)) lengthOf_mul hrun (by omega) (by omega) hop

/-- Settles O27: `arithOne` with the successor, which is the same on naturals. -/
theorem incIsModulo256 : Obligations.IncIsModulo256 := by
  refine ⟨fun _ => rfl, fun s a d ha => ?_, fun s a ha => takesFault_withReg ha, fun s hrun hpc hop => ?_⟩
  · obtain ⟨t, ht, hval, hframe⟩ := arithOne_completes lengthOf_inc (fun x => x + 1) ha s
    exact ⟨t, ht, by exact_mod_cast hval, hframe⟩
  · exact step_cutOff (registered_opcodeOf (.inc 0)) lengthOf_inc hrun (by omega) (by omega) hop

/-- Settles O28: `arithOne` with the predecessor. -/
theorem decIsModulo256 : Obligations.DecIsModulo256 := by
  refine ⟨fun _ => rfl, fun s a d ha => ?_, fun s a ha => takesFault_withReg ha, fun s hrun hpc hop => ?_⟩
  · exact arithOne_completes lengthOf_dec (fun x => x - 1) ha s
  · exact step_cutOff (registered_opcodeOf (.dec 0)) lengthOf_dec hrun (by omega) (by omega) hop

end Sys2Proof.Machine
end

section
/-! PROOF. Decode and encode agree (spec/30_encoding.md R100 to R106): under a valid assignment an instruction's opcode
byte finds the handler that makes it, and the handler takes exactly the operand bytes that the opcode announces. -/

namespace Sys2Proof

/-- The handler that makes instructions of the same kind as `i` from two operand bytes. -/
def handlerOf : Instr → Byte → Byte → Instr
  | .hlt => fun _ _ => .hlt
  | .ldi _ _ => fun a b => .ldi a b
  | .prn _ => fun a _ => .prn a
  | .push _ => fun a _ => .push a
  | .pop _ => fun a _ => .pop a
  | .add _ _ => fun a b => .add a b
  | .sub _ _ => fun a b => .sub a b
  | .mul _ _ => fun a b => .mul a b
  | .inc _ => fun a _ => .inc a
  | .dec _ => fun a _ => .dec a

/-- The handler of an instruction makes it from its own operand bytes, 0 standing for one it lacks (R149). -/
theorem handlerOf_operandBytes (i : Instr) :
    handlerOf i ((operandBytes i)[0]?.getD 0) ((operandBytes i)[1]?.getD 0) = i := by
  cases i <;> rfl

/-- What a handler makes has the first of its two bytes as operands, as many as its kind of instruction has. -/
theorem operandBytes_handlerOf (i : Instr) (a b : Byte) :
    operandBytes (handlerOf i a b) = [a, b].take (operandBytes i).length := by
  cases i <;> rfl

theorem opcodeWith_handlerOf (v : OpcodeValues) (i : Instr) (a b : Byte) :
    opcodeWith v (handlerOf i a b) = opcodeWith v i := by
  cases i <;> rfl

/-- Under a valid assignment no two handlers share a byte, so an opcode byte finds the handler of its instruction (R101,
R143). -/
theorem lookupHandler_opcodeWith {v : OpcodeValues} (hv : v.Valid) (i : Instr) :
    lookupHandler v (opcodeWith v i) = some (handlerOf i) := by
  obtain ⟨-, hdistinct⟩ := hv
  simp only [OpcodeValues.toList, List.nodup_cons, List.mem_cons, not_or] at hdistinct
  cases i <;> simp_all [lookupHandler, opcodeWith, handlerOf, eq_comm]

/-- Under a valid assignment the opcode byte announces as many operands as the instruction has (R102, R104). -/
theorem operandCount_opcodeWith {v : OpcodeValues} (hv : v.Valid) (i : Instr) :
    operandCount (opcodeWith v i) = (operandBytes i).length := by
  obtain ⟨⟨hhlt, hldi, hprn, hpush, hpop, hadd, hsub, hmul, hinc, hdec⟩, -⟩ := hv
  rw [operandCount_eq]
  cases i <;> assumption

/-- From an encoding, the operand bytes are found behind the opcode byte, whatever follows them (R100). -/
theorem operandAt_encodeWith {v : OpcodeValues} (hv : v.Valid) (i : Instr) (rest : List Byte) (k : Nat) :
    operandAt (opcodeWith v i) (fun k => (encodeWith v i ++ rest)[k]?) (k + 1) =
      some ((operandBytes i)[k]?.getD 0) := by
  rw [operandAt, operandCount_opcodeWith hv]
  split
  · have hk : k < (operandBytes i).length := ‹_›
    simp [encodeWith, List.getElem?_append_left hk, hk]
  · have hk : ¬ k < (operandBytes i).length := ‹_›
    simp [hk]

theorem decodeWith_encodeWith {v : OpcodeValues} (hv : v.Valid) (i : Instr) (rest : List Byte) :
    decodeWith v (encodeWith v i ++ rest) = .instr i := by
  have hop : (encodeWith v i ++ rest)[0]? = some (opcodeWith v i) := rfl
  rw [decodeWith, decodeFrom]
  simp only [hop, lookupHandler_opcodeWith hv, operandAt_encodeWith hv i rest 0, operandAt_encodeWith hv i rest 1,
    handlerOf_operandBytes]

/-- The opcode bytes of R106 announce the operands of their handlers and are distinct. -/
theorem opcodeValues_valid : opcodeValues.Valid := by decide

theorem decode_encode_append (i : Instr) (rest : List Byte) : decode (encode i ++ rest) = .instr i :=
  decodeWith_encodeWith opcodeValues_valid i rest

/-- Bytes that begin with an encoding decode to its instruction. -/
theorem decode_of_encode_prefix {i : Instr} {bytes : List Byte} (h : encode i <+: bytes) : decode bytes = .instr i := by
  obtain ⟨rest, rfl⟩ := h
  exact decode_encode_append i rest

/-- An operand the opcode has is the byte of the source at its place. -/
theorem operandAt_eq_some {op : Byte} {byteAt : Nat → Option Byte} {k : Nat} {a : Byte} (hk : k ≤ operandCount op)
    (h : operandAt op byteAt k = some a) : byteAt k = some a := by
  rwa [operandAt, if_pos hk] at h

/-- The handler found for a byte is the one of an instruction with that opcode byte. -/
theorem exists_handlerOf_of_lookup {v : OpcodeValues} (hv : v.Valid) {op : Byte} {handler : Byte → Byte → Instr}
    (h : lookupHandler v op = some handler) : ∃ i, opcodeWith v i = op ∧ handlerOf i = handler := by
  have hop : opcodeWith v (handler 0 0) = op := opcodeWith_of_lookup h 0 0
  rw [← hop, lookupHandler_opcodeWith hv] at h
  exact ⟨handler 0 0, hop, Option.some.inj h⟩

/-- A handler that was found makes instructions whose operands are the first of its two bytes, as many as the opcode
announces (R104). -/
theorem operandBytes_of_lookup {v : OpcodeValues} (hv : v.Valid) {op : Byte} {handler : Byte → Byte → Instr}
    (h : lookupHandler v op = some handler) (a b : Byte) :
    operandBytes (handler a b) = [a, b].take (operandCount op) := by
  obtain ⟨i, rfl, rfl⟩ := exists_handlerOf_of_lookup hv h
  rw [operandBytes_handlerOf, operandCount_opcodeWith hv]

/-- Bytes that decode to an instruction begin with its encoding: the opcode byte found the handler, and each operand byte was
read at its place. -/
theorem encodeWith_prefix_of_decodeWith {v : OpcodeValues} (hv : v.Valid) {bytes : List Byte} {i : Instr}
    (h : decodeWith v bytes = .instr i) : encodeWith v i <+: bytes := by
  rcases decodeFrom_cases v (fun k => bytes[k]?) with
    ⟨-, hd⟩ | ⟨op, h0, ⟨-, hd⟩ | ⟨handler, hl, ⟨-, hd⟩ | ⟨a, ha, ⟨-, hd⟩ | ⟨b, hb, hd⟩⟩⟩⟩
  iterate 4 exact absurd (hd.symm.trans h) (by simp)
  obtain rfl : handler a b = i := Decoded.instr.inj (hd.symm.trans h)
  rw [List.prefix_iff_getElem?]
  intro k hk
  simp only [encodeWith, opcodeWith_of_lookup hl, operandBytes_of_lookup hv hl] at hk ⊢
  simp only [List.length_cons, List.length_take, List.length_nil] at hk
  match k with
  | 0 => exact h0
  | 1 => simpa using operandAt_eq_some (by omega) ha
  | 2 => simpa using operandAt_eq_some (by omega) hb
  | k + 3 => omega

/-- Settles O4: the opcode byte finds the instruction's handler, and the operand bytes follow it in order. -/
theorem decodeOfEncodeIsTheInstruction : Obligations.DecodeOfEncodeIsTheInstruction :=
  ⟨opcodeValues_valid, fun _ hv => decodeWith_encodeWith hv, decode_encode_append⟩

/-- Settles O5: the bytes a decoded instruction was made from are its encoding, none of them ignored. -/
theorem decodedBytesAreTheEncoding : Obligations.DecodedBytesAreTheEncoding := fun _ _ h =>
  encodeWith_prefix_of_decodeWith opcodeValues_valid h

/-- Settles O7: each word is the encoding of its instruction under the bytes of R106. -/
theorem writtenOutWordsDecode : Obligations.WrittenOutWordsDecode :=
  ⟨decode_encode_append .hlt [], decode_encode_append (.ldi 3 0xFF) [], decode_encode_append (.prn 7) [],
    decode_encode_append (.push 2) [], decode_encode_append (.pop 6) [], decode_encode_append (.add 1 2) [],
    decode_encode_append (.sub 0 5) [], decode_encode_append (.mul 3 4) [], decode_encode_append (.inc 2) [],
    decode_encode_append (.dec 7) []⟩

end Sys2Proof

namespace Sys2Proof.Machine

/-- In RUNNING the step is the one of the instruction that the bytes at the pc decode to (R149). -/
theorem step_of_decode_codeAt {s : State} {i : Instr} (hrun : s.run = .running) (h : decode (codeAt s) = .instr i) :
    step s = exec i s := by
  rw [decode_codeAt] at h
  rw [step_running hrun, cycle, h]

/-- In RUNNING an instruction whose bytes lie at the pc runs. -/
theorem step_of_encode_prefix {s : State} {i : Instr} (hrun : s.run = .running) (h : encode i <+: codeAt s) :
    step s = exec i s :=
  step_of_decode_codeAt hrun (decode_of_encode_prefix h)

/-- Settles O9: the fetch decodes the bytes at the pc, and an encoding there decodes to its instruction. -/
theorem stepRunsDecodedInstruction : Obligations.StepRunsDecodedInstruction := fun _ _ hrun =>
  ⟨step_of_decode_codeAt hrun, step_of_encode_prefix hrun⟩

end Sys2Proof.Machine
end

section
/-! PROOF. PUSH and POP (spec/43_stack.md R190 to R192): the state each completes with, read field by field, and the
stack bound that decides between completing and faulting. -/

namespace Sys2Proof.Machine

section Rules
variable (s : State) (r d q : Reg)

/-- The state a PUSH of register `r` completes with, but for the pc (R190). -/
def State.pushed : State :=
  (s.setReg SP (mod256 (pushAddress s))).store (pushAddress s).toNat ((s.setReg SP (mod256 (pushAddress s))).reg r)

/-- The state of a POP between the load and the increment (R191). -/
def State.loaded : State := s.setReg d (s.mem.read (popAddress s))

/-- The state a POP into register `d` completes with, but for the pc (R191). -/
def State.popped : State := (s.loaded d).setReg SP (mod256 (((s.loaded d).reg SP).toNat + 1))

@[simp] theorem pushed_pc : (s.pushed r).pc = s.pc := rfl
@[simp] theorem pushed_run : (s.pushed r).run = s.run := rfl
@[simp] theorem pushed_fault : (s.pushed r).fault = s.fault := rfl
@[simp] theorem pushed_out : (s.pushed r).out = s.out := rfl
@[simp] theorem popped_pc : (s.popped d).pc = s.pc := rfl
@[simp] theorem popped_mem : (s.popped d).mem = s.mem := rfl
@[simp] theorem popped_run : (s.popped d).run = s.run := rfl
@[simp] theorem popped_fault : (s.popped d).fault = s.fault := rfl
@[simp] theorem popped_out : (s.popped d).out = s.out := rfl

/-- The byte a PUSH stores is what its register holds after the decrement (R190, decision D10). -/
theorem pushed_mem : (s.pushed r).mem = s.mem.write (pushAddress s).toNat ((s.pushed r).reg r) := rfl

variable {s r d q}

theorem pushed_reg_ne (h : q ≠ SP) : (s.pushed r).reg q = s.reg q := setReg_reg_ne s SP q _ h

theorem popped_reg_ne (hd : q ≠ d) (hsp : q ≠ SP) : (s.popped d).reg q = s.reg q := by
  rw [State.popped, setReg_reg_ne _ _ _ _ hsp, State.loaded, setReg_reg_ne _ _ _ _ hd]

theorem loaded_reg_same : (s.loaded d).reg d = s.mem.read (popAddress s) := setReg_reg_same s d _

theorem loaded_reg_ne (h : q ≠ d) : (s.loaded d).reg q = s.reg q := setReg_reg_ne s d q _ h

theorem popped_reg_dest (h : d ≠ SP) : (s.popped d).reg d = s.mem.read (popAddress s) := by
  rw [State.popped, setReg_reg_ne _ _ _ _ h, loaded_reg_same]

/-- PUSH's address lies inside memory as soon as it is not negative. -/
theorem pushAddress_lt : pushAddress s < 256 := by
  unfold pushAddress
  omega

/-- After a PUSH the stack pointer is the address of the store. -/
theorem pushed_reg_SP (h : 0 ≤ pushAddress s) : (((s.pushed r).reg SP).toNat : Int) = pushAddress s := by
  rw [State.pushed, store_reg, setReg_reg_same, mod256_of_range h pushAddress_lt]

/-- After a POP the stack pointer is one above what it was once the load was done. -/
theorem popped_reg_SP (h : ((s.loaded d).reg SP).toNat < 255) :
    ((s.popped d).reg SP).toNat = ((s.loaded d).reg SP).toNat + 1 := by
  have hval : (((s.popped d).reg SP).toNat : Int) = ((s.loaded d).reg SP).toNat + 1 := by
    rw [State.popped, setReg_reg_same, mod256_of_range (by omega) (by omega)]
  omega

/-- The pushed byte is read at PUSH's address, and every other address reads as before (R190). -/
theorem pushed_mem_read (hwf : s.mem.wf) {p : Nat} (hp : (p : Int) = pushAddress s) :
    (s.pushed r).mem.read p = (s.pushed r).reg r ∧ ∀ q, q ≠ p → (s.pushed r).mem.read q = s.mem.read q := by
  obtain rfl : (pushAddress s).toNat = p := by omega
  rw [pushed_mem]
  exact ⟨Memory.read_write_same hwf _ _, fun q hq => Memory.read_write_ne _ _ hq⟩

theorem pushed_mem_wf (h : s.mem.wf) : (s.pushed r).mem.wf :=
  Memory.write_wf h (by have := pushAddress_lt (s := s); unfold inMemory; omega) _

/-- PUSH of a register completes, or faults if its address would be below memory (R190, decision D8). -/
theorem exec_push {a : Byte} (ha : a.toNat = r.val) (s : State) :
    exec (.push a) s = if pushAddress s < 0 then raise opcodeValues.push .stackOutOfBounds (pushAddress s) s
      else complete opcodeValues.push (s.pushed r) :=
  withReg_ok (regOperand_eq_some_iff.mpr ha)

/-- POP into a register completes, or faults if the stack pointer would pass the last cell (R191, decision D8). -/
theorem exec_pop {a : Byte} (ha : a.toNat = d.val) (s : State) :
    exec (.pop a) s = if (255 : Int) < ((s.loaded d).reg SP).toNat + 1
      then raise opcodeValues.pop .stackOutOfBounds (((s.loaded d).reg SP).toNat + 1) s
      else complete opcodeValues.pop (s.popped d) :=
  withReg_ok (regOperand_eq_some_iff.mpr ha)

theorem exec_push_ok {a : Byte} (ha : a.toNat = r.val) (h : 0 ≤ pushAddress s) :
    exec (.push a) s = .next ((s.pushed r).advance opcodeValues.push) := by
  rw [exec_push ha, if_neg (by omega), complete]

theorem exec_pop_ok {a : Byte} (ha : a.toNat = d.val) (h : ((s.loaded d).reg SP).toNat < 255) :
    exec (.pop a) s = .next ((s.popped d).advance opcodeValues.pop) := by
  rw [exec_pop ha, if_neg (by omega), complete]

/-- A POP that leaves 255 in the stack pointer when it has loaded takes STACK_OUT_OF_BOUNDS at 256 (R191). -/
theorem exec_pop_of_loaded_255 {a : Byte} (ha : a.toNat = d.val) (h : (s.loaded d).reg SP = 0xFF) :
    TakesFault s (exec (.pop a) s) .stackOutOfBounds (some opcodeValues.pop) 256 := by
  rw [exec_pop ha, h]
  exact takesFault_raise opcodeValues.pop .stackOutOfBounds 256 s

/-- Loading a byte that the register already holds changes no register. -/
theorem loaded_reg_of_read_eq (h : s.mem.read (popAddress s) = s.reg d) : (s.loaded d).reg q = s.reg q := by
  rw [State.loaded, setReg_reg, h]
  split
  · subst_vars; rfl
  · rfl

/-- Where a PUSH has just completed, a POP of the same register loads what the register holds. -/
theorem pushed_read_popAddress (hwf : s.mem.wf) (h : 0 ≤ pushAddress s) :
    (s.pushed r).mem.read (popAddress (s.pushed r)) = (s.pushed r).reg r :=
  (pushed_mem_read hwf (pushed_reg_SP h)).1

/-- A POP of the register just pushed completes and restores every register (R192). -/
theorem exec_pop_pushed {a : Byte} (ha : a.toNat = r.val) (hwf : s.mem.wf) (h : 0 ≤ pushAddress s) (op : Byte) :
    ∃ u, exec (.pop a) ((s.pushed r).advance op) = .next u ∧ (∀ q, u.reg q = s.reg q) ∧ u.mem = (s.pushed r).mem ∧
      ControlKept s u := by
  have hloaded : ∀ q, (((s.pushed r).advance op).loaded r).reg q = (s.pushed r).reg q := fun q =>
    loaded_reg_of_read_eq (pushed_read_popAddress hwf h)
  have hsp := pushed_reg_SP (r := r) h
  have haddr : pushAddress s = (s.reg SP).toNat - 1 := rfl
  have hlt : ((((s.pushed r).advance op).loaded r).reg SP).toNat < 255 := by rw [hloaded]; omega
  refine ⟨_, exec_pop_ok ha hlt, fun q => ?_, rfl, rfl, rfl, rfl⟩
  by_cases hq : q = SP
  · have hval := popped_reg_SP hlt
    rw [hloaded] at hval
    rw [hq, advance_reg]
    exact BitVec.eq_of_toNat_eq (by omega)
  · rw [advance_reg, State.popped, setReg_reg_ne _ _ _ _ hq, hloaded, pushed_reg_ne hq]

end Rules

/-- Settles O20: the pushed state field by field. -/
theorem pushStoresBelowTheStackPointer : Obligations.PushStoresBelowTheStackPointer := by
  refine ⟨fun _ => rfl, fun s a r hwf ha hsp => ⟨rfl, ?_⟩⟩
  have haddr : pushAddress s = (s.reg SP).toNat - 1 := rfl
  have hval := pushed_reg_SP (r := r) (show 0 ≤ pushAddress s by omega)
  refine ⟨_, exec_push_ok ha (by omega), ?_, fun q hq => pushed_reg_ne (r := r) (by simpa using hq),
    fun p hp => pushed_mem_read hwf hp, ⟨rfl, rfl, rfl⟩, congrArg (s.pc + BitVec.ofNat 9 ·) lengthOf_push⟩
  rw [advance_reg]
  omega

/-- Settles O21: the register check comes before the stack bound, and PUSH's operand is fetched before either. -/
theorem pushFaults : Obligations.PushFaults :=
  ⟨fun _ _ ha => takesFault_withReg ha, fun _ _ ha hsp => exec_push_of_zero ha hsp, fun _ hrun hpc hop =>
    step_cutOff (registered_opcodeOf (.push 0)) lengthOf_push hrun (by omega) (by omega) hop⟩

/-- Settles O22: the popped state field by field; what the load leaves in the stack pointer is the old pointer, or the
loaded byte for R7. -/
theorem popLoadsFromTheStackPointer : Obligations.PopLoadsFromTheStackPointer := by
  refine ⟨fun _ => rfl, fun s a d ha => ⟨rfl, fun hd hsp => ?_, fun hd hv => ?_⟩⟩
  · have hload : (s.loaded d).reg SP = s.reg SP := loaded_reg_ne hd.symm
    rw [← hload] at hsp ⊢
    refine ⟨_, exec_pop_ok ha hsp, popped_reg_dest hd, popped_reg_SP hsp, fun q hq => ?_, fun _ => rfl, ⟨rfl, rfl, rfl⟩,
      congrArg (s.pc + BitVec.ofNat 9 ·) lengthOf_pop⟩
    simp only [List.mem_cons, List.not_mem_nil, or_false, not_or] at hq
    exact popped_reg_ne hq.1 hq.2
  · subst hd
    rw [← loaded_reg_same (d := SP)] at hv ⊢
    refine ⟨_, exec_pop_ok ha hv, popped_reg_SP hv, fun q hq => ?_, fun _ => rfl, ⟨rfl, rfl, rfl⟩,
      congrArg (s.pc + BitVec.ofNat 9 ·) lengthOf_pop⟩
    have hq : q ≠ SP := by simpa using hq
    exact popped_reg_ne hq hq

/-- Settles O23: the register check, and the stack bound when the load leaves 255 in the stack pointer: the old pointer,
or for R7 the loaded byte. -/
theorem popFaults : Obligations.PopFaults := by
  refine ⟨fun s a ha => takesFault_withReg ha, fun s a ha hsp => ?_, fun s hv => ?_, fun s hrun hpc hop => ?_⟩
  · have hne : SP ≠ ⟨a.toNat, by omega⟩ := fun h => by
      have : 7 = a.toNat := congrArg Fin.val h
      omega
    exact exec_pop_of_loaded_255 rfl ((loaded_reg_ne hne).trans hsp)
  · exact exec_pop_of_loaded_255 (d := SP) rfl (loaded_reg_same.trans hv)
  · exact step_cutOff (registered_opcodeOf (.pop 0)) lengthOf_pop hrun (by omega) (by omega) hop

/-- Settles O31: the POP finds the pushed byte at its address; for R7 that byte is the decremented pointer. -/
theorem pushThenPopIsARoundTrip : Obligations.PushThenPopIsARoundTrip := by
  intro s a r hwf ha hsp
  have haddr : pushAddress s = (s.reg SP).toNat - 1 := rfl
  have hpos : 0 ≤ pushAddress s := by omega
  obtain ⟨u, hu, hregs, hmem, hcontrol⟩ := exec_pop_pushed ha hwf hpos opcodeValues.push
  refine ⟨_, u, exec_push_ok ha hpos, hu, fun q _ => hregs q, hcontrol, fun p hp => ?_⟩
  obtain ⟨hread, hother⟩ := pushed_mem_read (r := r) hwf hp
  rw [hmem, hread]
  refine ⟨?_, hother⟩
  split
  · subst_vars
    have hval := pushed_reg_SP (r := SP) hpos
    omega
  · rw [pushed_reg_ne ‹_›]

end Sys2Proof.Machine
end

section
/-! PROOF. What every instruction answers (spec/40_cycle.md R145, spec/60_exceptions.md R300): it completes, or takes one of
two faults. The case split over the instructions is made once, in `exec_answers`. -/

namespace Sys2Proof.Machine

/-- `s'` can be what instruction `i` completes with on `s`, but for the pc: its register operands passed the check, HALT
alone changes the run state, there is no new record, and memory keeps its canonical form. -/
structure CompletesWith (i : Instr) (s s' : State) : Prop where
  wellFormed : i.wellFormed
  run : s'.run = if i = .hlt then .halted else s.run
  fault : s'.fault = s.fault
  pc : s'.pc = s.pc
  memWf : s.mem.wf → s'.mem.wf

/-- The first operand byte of an instruction that names no register. In an ill-formed instruction it is a register operand:
an immediate comes after one that is checked. -/
def firstBadOperand (i : Instr) : Option Byte := (operandBytes i).find? fun x => ¬ namesRegister x

/-- The address a stack fault records: -1 for PUSH and 256 for POP (R300). -/
def StackFaultAddr (i : Instr) (addr : Int) : Prop := (∃ a, i = .push a) ∧ addr = -1 ∨ (∃ a, i = .pop a) ∧ addr = 256

/-- What instruction `i` may answer on `s`: completing, BAD_REGISTER if it is ill-formed, or a stack fault if it is a
well-formed PUSH or POP. -/
def Answers (i : Instr) (s : State) (res : Result) : Prop :=
  (∃ s', CompletesWith i s s' ∧ res = complete (opcodeOf i) s') ∨
  (∃ a, ¬ i.wellFormed ∧ firstBadOperand i = some a ∧ res = raise (opcodeOf i) .badRegister a.toNat s) ∨
  ∃ addr, i.wellFormed ∧ StackFaultAddr i addr ∧ res = raise (opcodeOf i) .stackOutOfBounds addr s

theorem namesRegister_of_eq {a : Byte} {r : Reg} (h : a.toNat = r.val) : namesRegister a = true :=
  decide_eq_true (h ▸ r.isLt)

theorem not_namesRegister {a : Byte} (h : 8 ≤ a.toNat) : namesRegister a = false :=
  decide_eq_false (Nat.not_lt.mpr h)

theorem firstBadOperand_ge {i : Instr} {a : Byte} (h : firstBadOperand i = some a) : 8 ≤ a.toNat := by
  have hbad := List.find?_some h
  simpa [namesRegister] using hbad

section Answers
variable {i : Instr} {s s' : State}

theorem answers_complete (hwf : i.wellFormed) (hrun : s'.run = if i = .hlt then .halted else s.run)
    (hfault : s'.fault = s.fault) (hpc : s'.pc = s.pc) (hmem : s.mem.wf → s'.mem.wf) :
    Answers i s (complete (opcodeOf i) s') :=
  .inl ⟨s', ⟨hwf, hrun, hfault, hpc, hmem⟩, rfl⟩

/-- The register check goes on with the register, or ends in BAD_REGISTER with the operand, which must then be the
instruction's first bad one. -/
theorem answers_withReg {a : Byte} {k : Reg → Result}
    (hbad : namesRegister a = false → i.wellFormed = false ∧ firstBadOperand i = some a)
    (hk : ∀ r : Reg, a.toNat = r.val → Answers i s (k r)) : Answers i s (withReg (opcodeOf i) a s k) := by
  rcases withReg_cases (opcodeOf i) a s k with ⟨r, hr, h⟩ | ⟨ha, h⟩
  · rw [h]
    exact hk r hr
  · obtain ⟨hill, hfirst⟩ := hbad (not_namesRegister ha)
    exact .inr (.inl ⟨a, by simp [hill], hfirst, h⟩)

/-- An instruction with one register operand and no other, once its operand has been checked. -/
theorem answers_withReg_single {a : Byte} {k : Reg → Result} (hwf : i.wellFormed = namesRegister a)
    (hops : operandBytes i = [a]) (hk : ∀ r : Reg, a.toNat = r.val → i.wellFormed → Answers i s (k r)) :
    Answers i s (withReg (opcodeOf i) a s k) :=
  answers_withReg (fun ha => ⟨hwf.trans ha, by simp [firstBadOperand, hops, ha]⟩)
    fun r hr => hk r hr (hwf.trans (namesRegister_of_eq hr))

theorem arithOne_answers {a : Byte} (f : Int → Int) (hi : i ≠ .hlt) (hwf : i.wellFormed = namesRegister a)
    (hops : operandBytes i = [a]) : Answers i s (arithOne (opcodeOf i) f a s) :=
  answers_withReg_single hwf hops fun _ _ hw => answers_complete hw (by simp [hi]) rfl rfl id

/-- Operand a is checked before operand b, so b is the first bad one only if a names a register. -/
theorem arithTwo_answers {a b : Byte} (f : Int → Int → Int) (hi : i ≠ .hlt)
    (hwf : i.wellFormed = (namesRegister a && namesRegister b)) (hops : operandBytes i = [a, b]) :
    Answers i s (arithTwo (opcodeOf i) f a b s) := by
  refine answers_withReg (fun ha => ?_) fun d hd => answers_withReg (fun hb => ?_) fun r hr => ?_
  · exact ⟨by simp [hwf, ha], by simp [firstBadOperand, hops, ha]⟩
  · exact ⟨by simp [hwf, hb], by simp [firstBadOperand, hops, namesRegister_of_eq hd, hb]⟩
  · exact answers_complete (by simp [hwf, namesRegister_of_eq hd, namesRegister_of_eq hr]) (by simp [hi]) rfl rfl id

end Answers

/-- LOAD_IMMEDIATE's immediate is never checked. -/
theorem execLdi_answers (a b : Byte) (s : State) : Answers (.ldi a b) s (execLdi a b s) :=
  answers_withReg (fun ha => ⟨ha, by simp [firstBadOperand, operandBytes, ha]⟩)
    fun _ hd => answers_complete (namesRegister_of_eq hd) rfl rfl rfl id

/-- PUSH's address is negative only at -1. -/
theorem execPush_answers (a : Byte) (s : State) : Answers (.push a) s (execPush a s) := by
  refine answers_withReg_single rfl rfl fun r _ hw => ?_
  change Answers _ s (if pushAddress s < 0 then _ else complete _ (s.pushed r))
  split
  · have haddr : pushAddress s = -1 := by unfold pushAddress at *; omega
    exact .inr (.inr ⟨_, hw, .inl ⟨⟨a, rfl⟩, haddr⟩, rfl⟩)
  · exact answers_complete hw rfl rfl rfl pushed_mem_wf

/-- POP's incremented pointer is above 255 only at 256. -/
theorem execPop_answers (a : Byte) (s : State) : Answers (.pop a) s (execPop a s) := by
  refine answers_withReg_single rfl rfl fun d _ hw => ?_
  change Answers _ s (if (255 : Int) < ((s.loaded d).reg SP).toNat + 1 then _ else complete _ (s.popped d))
  split
  · have haddr : (((s.loaded d).reg SP).toNat : Int) + 1 = 256 := by omega
    exact .inr (.inr ⟨_, hw, .inr ⟨⟨a, rfl⟩, haddr⟩, rfl⟩)
  · exact answers_complete hw rfl rfl rfl id

/-- What every instruction answers (R145). -/
theorem exec_answers (i : Instr) (s : State) : Answers i s (exec i s) := by
  cases i with
  | hlt => exact answers_complete rfl rfl rfl rfl id
  | ldi a b => exact execLdi_answers a b s
  | prn a => exact answers_withReg_single rfl rfl fun _ _ hw => answers_complete hw rfl rfl rfl id
  | push a => exact execPush_answers a s
  | pop a => exact execPop_answers a s
  | add a b => exact arithTwo_answers (fun x y => x + y) (by simp) rfl rfl
  | sub a b => exact arithTwo_answers (fun x y => x - y) (by simp) rfl rfl
  | mul a b => exact arithTwo_answers (fun x y => x * y) (by simp) rfl rfl
  | inc a => exact arithOne_answers (fun x => x + 1) (by simp) rfl rfl
  | dec a => exact arithOne_answers (fun x => x - 1) (by simp) rfl rfl

/-- Settles O11: the three answers an instruction has. -/
theorem everyInstructionAnswersANextState : Obligations.EveryInstructionAnswersANextState := by
  intro i s
  rcases exec_answers i s with ⟨s', hc, h⟩ | ⟨a, hill, -, h⟩ | ⟨addr, hwf, haddr, h⟩
  · exact ⟨_, h, .inl ⟨hc.fault, hc.run⟩⟩
  · refine ⟨_, h, .inr (.inl ⟨a.toNat, ?_, hill⟩)⟩
    rw [h]
    exact takesFault_raise ..
  · refine ⟨_, h, .inr (.inr ⟨addr, ?_, hwf, ?_⟩)⟩
    · rw [h]
      exact takesFault_raise ..
    · rcases haddr with ⟨⟨a, ha⟩, -⟩ | ⟨⟨a, ha⟩, -⟩
      · exact ⟨a, .inl ha⟩
      · exact ⟨a, .inr ha⟩

/-- Completing an instruction moves the pc, in its 9 bits too. -/
theorem advance_pc_ne (s : State) (op : Byte) : (s.advance op).pc ≠ s.pc := by
  have hcount : operandCount op ≤ 3 := by
    have := op.isLt
    rw [operandCount_eq]
    omega
  simp only [advance_pc, lengthOf, ne_eq, ← BitVec.toNat_inj, BitVec.toNat_add, BitVec.toNat_ofNat]
  omega

/-- The record a fault taken by raising holds is the one raised, so it says the cause. -/
theorem cause_of_takesFault_raise {op : Byte} {c c' : FaultCause} {addr addr' : Int} {o : Option Byte} {s : State}
    (h : TakesFault s (raise op c addr s) c' o addr') : c = c' := by
  obtain ⟨t, ht, -, hrecord, -⟩ := h
  rw [raise_next ht] at hrecord
  exact congrArg FaultRecord.cause (Option.some.inj hrecord)

/-- A well-formed instruction takes no BAD_REGISTER: completing moves the pc, and a stack fault records another cause. -/
theorem not_takesFault_badRegister {i : Instr} (hwf : i.wellFormed) (s : State) (o : Option Byte) (n : Int) :
    ¬ TakesFault s (exec i s) .badRegister o n := by
  intro hf
  rcases exec_answers i s with ⟨s', hc, h⟩ | ⟨_, hill, -, -⟩ | ⟨_, -, -, h⟩
  · obtain ⟨t, ht, -, -, -, -, hpc, -⟩ := hf
    obtain rfl := complete_next (h.symm.trans ht)
    exact advance_pc_ne s' _ (hpc.trans hc.pc.symm)
  · exact hill hwf
  · exact absurd (cause_of_takesFault_raise (h ▸ hf)) (by simp)

/-- Settles O16: an ill-formed instruction can neither complete nor raise a stack fault. -/
theorem illFormedInstructionIsBadRegister : Obligations.IllFormedInstructionIsBadRegister := by
  refine fun i s => ⟨fun hill => ?_, fun hwf n => not_takesFault_badRegister hwf s _ n⟩
  rcases exec_answers i s with ⟨s', hc, -⟩ | ⟨a, -, hfirst, h⟩ | ⟨_, hwf, -, -⟩
  · exact absurd hc.wellFormed hill
  · refine ⟨a, hfirst, ?_⟩
    rw [h]
    exact takesFault_raise ..
  · exact absurd hwf hill

end Sys2Proof.Machine
end

section
/-! PROOF. What a step answers (spec/40_cycle.md R148, R149): it completes the decoded instruction, or enters a fault with a
record that is legal for its cause and holds the pc. The invariant follows, for each step and so for each reachable state. -/

namespace Sys2Proof.Machine

/-- No opcode is fetched only past the last cell (R141). -/
theorem fetchDecode_noOpcode {s : State} (h : fetchDecode s = .noOpcode) : 255 < s.pc.toNat := by
  rcases fetchDecode_cases s with ⟨hpc, -⟩ | ⟨-, -, hd⟩ | ⟨-, -, -, _, -, hd⟩ | ⟨-, -, _, -, hd⟩
  · exact hpc
  all_goals simp [hd] at h

/-- Only a byte inside memory and without a handler is answered as unregistered (R143). -/
theorem fetchDecode_eq_unregistered {s : State} {op : Byte} (h : fetchDecode s = .unregistered op) :
    s.pc.toNat ≤ 255 ∧ ¬ registered op := by
  rcases fetchDecode_cases s with ⟨-, hd⟩ | ⟨hpc, hop, hd⟩ | ⟨-, -, -, _, -, hd⟩ | ⟨-, -, _, -, hd⟩
  · simp [hd] at h
  · obtain rfl := Decoded.unregistered.inj (hd.symm.trans h)
    exact ⟨hpc, hop⟩
  all_goals simp [hd] at h

/-- A missing operand is one of a registered opcode inside memory, and it would lie at address 256 (R144). -/
theorem fetchDecode_eq_missingOperand {s : State} {op : Byte} {k : Nat} (h : fetchDecode s = .missingOperand op k) :
    s.pc.toNat ≤ 255 ∧ registered op ∧ 255 < s.pc.toNat + operandCount op ∧ s.pc.toNat + k = 256 := by
  rcases fetchDecode_cases s with ⟨-, hd⟩ | ⟨-, -, hd⟩ | ⟨hpc, hreg, hout, j, hj, hd⟩ | ⟨-, -, _, -, hd⟩
  · simp [hd] at h
  · simp [hd] at h
  · obtain ⟨rfl, rfl⟩ := Decoded.missingOperand.inj (hd.symm.trans h)
    exact ⟨hpc, hreg, hout, hj⟩
  · simp [hd] at h

/-- The record of a missing opcode is legal where the pc keeps its bound of 256 (R26, R141). -/
theorem legal_noOpcode {s : State} (h : fetchDecode s = .noOpcode) (hpc : s.pc.toNat ≤ 256) :
    (fetchFault s .fetchOutOfBounds none 0).Legal := by
  have hout := fetchDecode_noOpcode h
  have h256 : s.pc.toNat = 256 := by omega
  exact ⟨congrArg Nat.cast h256, .inl ⟨rfl, h256⟩⟩

theorem legal_unregistered {s : State} {op : Byte} (h : fetchDecode s = .unregistered op) :
    (fetchFault s .decodeError (some op) 0).Legal := by
  obtain ⟨hpc, hop⟩ := fetchDecode_eq_unregistered h
  exact ⟨⟨op, rfl, hop⟩, hpc, rfl⟩

theorem legal_missingOperand {s : State} {op : Byte} {k : Nat} (h : fetchDecode s = .missingOperand op k) :
    (fetchFault s .fetchOutOfBounds (some op) k).Legal := by
  obtain ⟨hpc, hreg, hout, hk⟩ := fetchDecode_eq_missingOperand h
  exact ⟨congrArg Nat.cast hk, .inr ⟨op, rfl, hreg, hpc, hout⟩⟩

/-- An ill-formed instruction is not HALT, and its first bad operand is 8 to 255 (R300). -/
theorem legal_badRegister {i : Instr} {a : Byte} (hill : ¬ i.wellFormed) (h : firstBadOperand i = some a) (pc : Pc) :
    FaultRecord.Legal { cause := .badRegister, fpc := pc, opcode := some (opcodeOf i), addr := a.toNat } := by
  have hge := firstBadOperand_ge h
  have hlt := a.isLt
  refine ⟨⟨_, rfl, registered_opcodeOf i, fun hop => ?_⟩, by simpa using hge, by dsimp only; omega⟩
  rw [opcodeOf_eq_hlt_iff.mp hop] at hill
  exact hill rfl

theorem legal_stackOutOfBounds {i : Instr} {addr : Int} (h : StackFaultAddr i addr) (pc : Pc) :
    FaultRecord.Legal { cause := .stackOutOfBounds, fpc := pc, opcode := some (opcodeOf i), addr := addr } := by
  rcases h with ⟨⟨a, rfl⟩, haddr⟩ | ⟨⟨a, rfl⟩, haddr⟩
  · exact .inl ⟨rfl, haddr⟩
  · exact .inr ⟨rfl, haddr⟩

/-- An instruction's next state: completed, or faulted with a legal record. -/
theorem exec_next_legal {i : Instr} {s t : State} (h : exec i s = .next t) :
    (∃ s', CompletesWith i s s' ∧ t = s'.advance (opcodeOf i)) ∨
      ∃ r : FaultRecord, r.Legal ∧ r.fpc = s.pc ∧ t = s.enterFault r := by
  rcases exec_answers i s with ⟨s', hc, hexec⟩ | ⟨a, hill, hfirst, hexec⟩ | ⟨addr, -, haddr, hexec⟩
  · exact .inl ⟨s', hc, complete_next (hexec.symm.trans h)⟩
  · exact .inr ⟨_, legal_badRegister hill hfirst s.pc, rfl, raise_next (hexec.symm.trans h)⟩
  · exact .inr ⟨_, legal_stackOutOfBounds haddr s.pc, rfl, raise_next (hexec.symm.trans h)⟩

/-- A step's next state: the decoded instruction completed, or a fault entered with a record that holds the pc, and that is
legal where the pc keeps its bound. -/
theorem step_next_legal {s t : State} (h : step s = .next t) :
    (∃ i s', fetchDecode s = .instr i ∧ CompletesWith i s s' ∧ t = s'.advance (opcodeOf i)) ∨
      ∃ r : FaultRecord, (s.pc.toNat ≤ 256 → r.Legal) ∧ r.fpc = s.pc ∧ t = s.enterFault r := by
  obtain ⟨-, ⟨i, hd, hi⟩ | ⟨hd, ht⟩ | ⟨_, hd, ht⟩ | ⟨_, _, hd, ht⟩⟩ := step_next_cases h
  · rcases exec_next_legal hi with ⟨s', hc, ht⟩ | ⟨r, hlegal, hfpc, ht⟩
    · exact .inl ⟨i, s', hd, hc, ht⟩
    · exact .inr ⟨r, fun _ => hlegal, hfpc, ht⟩
  · exact .inr ⟨_, legal_noOpcode hd, rfl, ht⟩
  · exact .inr ⟨_, fun _ => legal_unregistered hd, rfl, ht⟩
  · exact .inr ⟨_, fun _ => legal_missingOperand hd, rfl, ht⟩

/-- Completing from RUNNING never leaves FAULTED (R147). -/
theorem CompletesWith.run_ne_faulted {i : Instr} {s s' : State} (h : CompletesWith i s s') (hrun : s.run = .running) :
    s'.run ≠ .faulted := by
  rw [h.run, hrun]
  split <;> simp

/-- Entering a fault with a legal record of the pc keeps the invariant. -/
theorem inv_enterFault {s : State} (h : s.Inv) {r : FaultRecord} (hlegal : r.Legal) (hfpc : r.fpc = s.pc) :
    (s.enterFault r).Inv where
  memWf := h.memWf
  pcBound := h.pcBound
  faultIff := by simp
  faultLegal q hq := by
    obtain rfl : r = q := Option.some.inj hq
    exact ⟨hlegal, hfpc⟩

/-- Completing an instruction that lies inside memory keeps the invariant: the pc passes at most its last byte. -/
theorem inv_advance {i : Instr} {s s' : State} (h : s.Inv) (hrun : s.run = .running) (hd : fetchDecode s = .instr i)
    (hc : CompletesWith i s s') : (s'.advance (opcodeOf i)).Inv := by
  obtain ⟨hop, hin⟩ := fetchDecode_instr hd
  have hnone : s.fault = none := by simpa [hrun] using h.faultIff
  have hfault : s'.fault = none := hc.fault.trans hnone
  refine ⟨hc.memWf h.memWf, ?_, ?_, fun r hr => by simp [hfault] at hr⟩
  · rw [← hop, ← hc.pc] at hin
    rw [advance_pc_toNat hin]
    omega
  · simp [hfault, hc.run_ne_faulted hrun]

/-- Settles O38: a step completes an instruction or enters a fault, and both keep the invariant. -/
theorem everyStepKeepsTheInvariant : Obligations.EveryStepKeepsTheInvariant := by
  intro s t hinv h
  rcases step_next_legal h with ⟨i, s', hd, hc, rfl⟩ | ⟨r, hlegal, hfpc, rfl⟩
  · exact inv_advance hinv (step_next_cases h).1 hd hc
  · exact inv_enterFault hinv (hlegal hinv.pcBound) hfpc

/-- The reset state, with any canonical memory, meets the invariant. -/
theorem inv_reset_withMem {m : Memory} (h : m.wf) : (State.reset.withMem m).Inv where
  memWf := h
  pcBound := by simp
  faultIff := by simp [State.reset]
  faultLegal r hr := by simp [State.reset] at hr

theorem inv_initialise {image : List Byte} {s : State} (h : initialise image = .next s) : s.Inv := by
  obtain rfl := initialise_next h
  exact inv_reset_withMem (Memory.place_wf Memory.wf_nil 0 image)

/-- Settles O37: the reset state and the placed image's memory are canonical. -/
theorem resetAndInitialStatesMeetTheInvariant : Obligations.ResetAndInitialStatesMeetTheInvariant :=
  ⟨inv_reset_withMem reset_mem_wf, fun _ _ => inv_initialise⟩

/-- The invariant holds of every state a run reaches. -/
theorem Reachable.inv {s : State} (h : Reachable s) : s.Inv := by
  induction h with
  | initial h => exact inv_initialise h
  | step _ h ih => exact everyStepKeepsTheInvariant _ _ ih h

theorem exitStatus_of_running {s : State} (h : s.run = .running) : exitStatus s = none := by
  rw [exitStatus, h]

/-- After a fault the status is one more than a number of which nothing else is known (R321). -/
theorem exitStatus_of_faulted {s : State} (h : s.run = .faulted) : ∃ n, exitStatus s = some (n + 1) :=
  ⟨Config.faultExitStatusLessOne s.faultCode, by rw [exitStatus, h]⟩

/-- Settles O42: the status by run state, and the record by the invariant. -/
theorem exitStatusSaysHowTheRunEnded : Obligations.ExitStatusSaysHowTheRunEnded := by
  intro s hs
  have hrecord := hs.inv.faultIff
  cases hrun : s.run with
  | running => simpa [exitStatus_of_running hrun, hrun] using hrecord
  | halted => simpa [exitStatus_of_halted hrun, hrun] using hrecord
  | faulted =>
    obtain ⟨n, hn⟩ := exitStatus_of_faulted hrun
    simpa [hn, hrun] using hrecord

/-- Settles O15: a state that is FAULTED after a step was entered by a fault, which keeps everything else. -/
theorem faultIsPrecise : Obligations.FaultIsPrecise := by
  intro s t h hfaulted
  rcases step_next_legal h with ⟨i, s', -, hc, rfl⟩ | ⟨r, -, hfpc, rfl⟩
  · exact absurd hfaulted (hc.run_ne_faulted (step_next_cases h).1)
  · exact ⟨fun _ _ => rfl, fun _ => rfl, rfl, rfl, r, rfl, hfpc⟩

/-- In RUNNING a pc past the last cell takes FETCH_OUT_OF_BOUNDS at the pc (R141). -/
theorem step_noOpcode {s : State} (hrun : s.run = .running) (hpc : 255 < s.pc.toNat) :
    TakesFault s (step s) .fetchOutOfBounds none s.pc.toNat := by
  have hd : fetchDecode s = .noOpcode := by
    rcases fetchDecode_cases s with ⟨-, hd⟩ | ⟨h, -⟩ | ⟨h, -⟩ | ⟨-, h, -⟩
    · exact hd
    all_goals omega
  have hstep : step s = .next (s.enterFault (fetchFault s .fetchOutOfBounds none 0)) := by
    rw [step_running hrun, cycle, hd]
  rw [hstep]
  exact takesFault_enterFault s .fetchOutOfBounds none s.pc.toNat

/-- In RUNNING a registered opcode whose operands lie inside memory is decoded, and the step is its instruction's (R145). -/
theorem step_registered {s : State} (hrun : s.run = .running) (hreg : registered (s.mem.read s.pc.toNat))
    (hin : s.pc.toNat + operandCount (s.mem.read s.pc.toNat) ≤ 255) :
    ∃ i, fetchDecode s = .instr i ∧ opcodeOf i = s.mem.read s.pc.toNat ∧ step s = exec i s := by
  rcases fetchDecode_cases s with ⟨h, -⟩ | ⟨-, hun, -⟩ | ⟨-, -, hout, -⟩ | ⟨-, -, i, hop, hd⟩
  · omega
  · exact absurd hreg hun
  · omega
  · exact ⟨i, hd, hop, by rw [step_running hrun, cycle, hd]⟩

/-- Settles O12: where the needed bytes end decides among the three. -/
theorem fetchOutsideMemoryFaults : Obligations.FetchOutsideMemoryFaults := by
  refine fun s hrun => ⟨step_noOpcode hrun, fun hpc hreg => ⟨step_missingOperand hrun hpc rfl hreg, fun hin => ?_⟩⟩
  obtain ⟨i, -, hop, hstep⟩ := step_registered hrun hreg hin
  exact ⟨i, hop, hstep⟩

end Sys2Proof.Machine
end

section
/-! PROOF. Runs of several steps (spec/40_cycle.md R151, R152, spec/60_exceptions.md R304): each completed step moves the pc
up, and it stays at most 256, so a run ends; nothing follows the end. -/

namespace Sys2Proof.Machine

/-- A run of `k + m` steps is `k` steps and then `m`, if the first `k` answer a state. -/
theorem runFor_add {k : Nat} {s t : State} (h : runFor k s = .next t) (m : Nat) : runFor (k + m) s = runFor m t := by
  induction k generalizing s with
  | zero =>
    obtain rfl := Host.Outcome.next.inj h
    rw [Nat.zero_add]
  | succ k ih =>
    rw [Nat.add_right_comm]
    cases hs : step s with
    | next u =>
      rw [runFor_next hs] at h ⊢
      exact ih h
    | fault r => simp [runFor_fault hs] at h
    | refused r => simp [runFor_refused hs] at h

/-- In an ended state the step stops, with the name of how the run ended (R304). -/
theorem step_of_ended {s : State} (h : s.ended) :
    step s = .fault (if s.run = .halted then Fault.haltedTakesNoStep else Fault.faultedTakesNoStep) := by
  cases hrun : s.run with
  | running => exact absurd hrun h
  | halted => exact step_halted hrun
  | faulted => exact step_faulted hrun

/-- Settles O41: the steps beyond the end begin with one that stops. -/
theorem endedRunsStayEnded : Obligations.EndedRunsStayEnded := by
  intro s t k j hk ht hj
  obtain ⟨m, rfl⟩ : ∃ m, j = k + (m + 1) := ⟨j - k - 1, by omega⟩
  rw [runFor_add hk, runFor_fault (step_of_ended ht)]

/-- A step that does not end the run moves the pc up, and it stays at most 256 (R27, R151). -/
theorem step_pc_lt {s t : State} (h : step s = .next t) (ht : t.run = .running) :
    s.pc.toNat < t.pc.toNat ∧ t.pc.toNat ≤ 256 := by
  rcases step_next_legal h with ⟨i, s', hd, hc, rfl⟩ | ⟨r, -, -, rfl⟩
  · obtain ⟨hop, hin⟩ := fetchDecode_instr hd
    rw [← hop, ← hc.pc] at hin
    rw [advance_pc_toNat hin, ← hc.pc]
    omega
  · simp at ht

/-- From RUNNING the run ends within as many steps as there are addresses from the pc to 256, and within one from above
(R151). -/
theorem run_ends (s : State) (hrun : s.run = .running) :
    ∃ k t, 1 ≤ k ∧ k ≤ max 1 (257 - s.pc.toNat) ∧ runFor k s = .next t ∧ t.ended := by
  induction hn : 257 - s.pc.toNat using Nat.strong_induction_on generalizing s with
  | _ n ih =>
    obtain ⟨t, hstep⟩ := step_answers_next_iff.mpr hrun
    by_cases ht : t.run = .running
    · obtain ⟨hlt, hle⟩ := step_pc_lt hstep ht
      obtain ⟨k, u, hk, hbound, hu, hended⟩ := ih _ (by omega) t ht rfl
      exact ⟨k + 1, u, by omega, by omega, (runFor_next hstep).trans hu, hended⟩
    · exact ⟨1, t, le_rfl, le_max_left .., runFor_next hstep, ht⟩

theorem exitStatus_isSome_of_ended {s : State} (h : s.ended) : (exitStatus s).isSome := by
  cases hrun : s.run with
  | running => exact absurd hrun h
  | halted => simp [exitStatus_of_halted hrun]
  | faulted =>
    obtain ⟨n, hn⟩ := exitStatus_of_faulted hrun
    simp [hn]

/-- Settles O39: the bound from the pc, and an ended state has its status. -/
theorem everyRunEnds : Obligations.EveryRunEnds := by
  refine ⟨fun s hrun => ?_, fun image s h => ?_⟩
  · obtain ⟨k, t, hk, hbound, ht, hended⟩ := run_ends s hrun
    exact ⟨k, t, hk, hbound, ht, hended, exitStatus_isSome_of_ended hended⟩
  · obtain ⟨-, -, hrun⟩ := initialisationFixesPcStackPointerAndRun.2 image s h
    obtain ⟨k, t, -, hbound, ht, hended⟩ := run_ends s hrun
    exact ⟨k, t, by omega, ht, hended⟩

/-- Settles O40: the run ends, and not in FAULTED. -/
theorem runWithoutFaultHalts : Obligations.RunWithoutFaultHalts := by
  intro s hrun hsafe
  obtain ⟨k, t, -, hbound, ht, hended⟩ := run_ends s hrun
  have hnofault : t.run ≠ .faulted := hsafe k t ht
  refine ⟨k, t, by omega, ht, ?_⟩
  cases hr : t.run with
  | running => exact absurd hr hended
  | halted => rfl
  | faulted => exact absurd hr hnofault

end Sys2Proof.Machine
end

section
/-! PROOF. Memory and what initialisation leaves in it (spec/20_memory.md R60, R73, spec/70_reset_and_hazards.md R400, R401):
reads after a list of writes, and that a canonical list is determined by what it reads. -/

namespace Sys2Proof.Machine

/-- The memory after a list of writes, each an address and a byte, done in order. -/
def Memory.writes (m : Memory) (ws : List (Nat × Byte)) : Memory := ws.foldl (fun m' w => m'.write w.1 w.2) m

theorem Memory.writes_concat (m : Memory) (ws : List (Nat × Byte)) (w : Nat × Byte) :
    m.writes (ws ++ [w]) = (m.writes ws).write w.1 w.2 := by
  simp [Memory.writes]

theorem Memory.writes_wf {m : Memory} (h : m.wf) {ws : List (Nat × Byte)} (hin : ∀ w ∈ ws, w.1 < 256) :
    (m.writes ws).wf := by
  induction ws generalizing m with
  | nil => exact h
  | cons w ws ih => exact ih (Memory.write_wf h (hin w (by simp)) w.2) fun w hw => hin w (List.mem_cons_of_mem _ hw)

/-- Settles O35: by induction on the writes from the last one back, which hides the earlier ones at its address alone. -/
theorem readsSeeTheLatestWrite : Obligations.ReadsSeeTheLatestWrite := by
  intro m ws a hwf hin
  change (m.writes ws).read a = _
  induction ws using List.reverseRecOn with
  | nil => rfl
  | append_singleton ws w ih =>
    have hin' : ∀ w ∈ ws, w.1 < 256 := fun w hw => hin w (List.mem_append_left _ hw)
    rw [Memory.writes_concat, List.reverse_concat]
    by_cases ha : w.1 = a
    · subst ha
      simp [Memory.read_write_same (Memory.writes_wf hwf hin')]
    · rw [Memory.read_write_ne _ _ (Ne.symm ha), ih hin', List.find?_cons_of_neg (by simpa using ha)]

/-- The first listed cell of a canonical memory is the lowest address that does not read as unlisted. -/
theorem Memory.wf_cons_read {k : Nat} {v : Byte} {m : Memory} (h : Memory.wf ((k, v) :: m)) :
    Memory.read ((k, v) :: m) k ≠ Memory.unlisted ∧ ∀ a ≤ k, Memory.read m a = Memory.unlisted := by
  have hcell := (h.2 (k, v) (by simp)).2
  exact ⟨by simpa [Memory.read] using hcell, fun a ha =>
    Memory.read_of_lt fun c hc => Nat.lt_of_le_of_lt ha ((List.pairwise_cons.mp h.1).1 c hc)⟩

/-- Below the first listed cell everything reads as unlisted. -/
theorem Memory.read_cons_of_lt {k a : Nat} {v : Byte} {m : Memory} (h : Memory.wf ((k, v) :: m)) (ha : a < k) :
    Memory.read ((k, v) :: m) a = Memory.unlisted := by
  rw [Memory.read, if_neg (Nat.ne_of_lt ha)]
  exact (Memory.wf_cons_read h).2 a ha.le

/-- Two canonical memories that read alike list the same cells: their first cells have the same address, being the lowest
that does not read as unlisted, and their tails read alike. -/
theorem Memory.ext_read {m n : Memory} (hm : m.wf) (hn : n.wf) (h : ∀ a, a < 256 → m.read a = n.read a) : m = n := by
  induction m generalizing n with
  | nil =>
    cases n with
    | nil => rfl
    | cons d n => exact absurd (h d.1 (hn.2 d (by simp)).1).symm (Memory.wf_cons_read hn).1
  | cons c m ih =>
    obtain ⟨k, v⟩ := c
    have hk : k < 256 := (hm.2 (k, v) (by simp)).1
    obtain ⟨hmk, hmbelow⟩ := Memory.wf_cons_read hm
    cases n with
    | nil => exact absurd (h k hk) hmk
    | cons d n =>
      obtain ⟨l, w⟩ := d
      have hl : l < 256 := (hn.2 (l, w) (by simp)).1
      obtain ⟨hnl, hnbelow⟩ := Memory.wf_cons_read hn
      obtain rfl : k = l := by
        rcases Nat.lt_trichotomy k l with hlt | heq | hlt
        · exact absurd ((h k hk).trans (Memory.read_cons_of_lt hn hlt)) hmk
        · exact heq
        · exact absurd ((h l hl).symm.trans (Memory.read_cons_of_lt hm hlt)) hnl
      have hvw : v = w := by simpa [Memory.read] using h k hk
      rw [hvw, ih (Memory.wf_tail hm) (Memory.wf_tail hn) fun a ha => ?_]
      by_cases hak : a = k
      · rw [hak, hmbelow k le_rfl, hnbelow k le_rfl]
      · simpa [Memory.read, hak] using h a ha

/-- Settles O36: the canonical form is extensional. -/
theorem canonicalMemoriesThatReadAlikeAreEqual : Obligations.CanonicalMemoriesThatReadAlikeAreEqual :=
  fun _ _ hm hn h => Memory.ext_read hm hn h

/-- The image lies from address 0 on (R400). -/
theorem initialise_read_image {image : List Byte} {s : State} (h : initialise image = .next s) {a : Nat}
    (ha : a < image.length) : s.mem.read a = image[a] := by
  rcases initialise_cases image with ⟨hlen, -⟩ | ⟨-, hi⟩
  · obtain rfl := initialise_next h
    exact (Memory.read_place Memory.wf_nil (by omega) a).trans (dif_pos ⟨Nat.zero_le a, ha⟩)
  · simp [hi] at h

theorem reset_reg_of_ne_SP {r : Reg} (h : r ≠ SP) : State.reset.reg r = 0x00 := by
  revert r
  decide

/-- Settles O2: the image's bytes, the zero fill behind them, and the fields taken from the reset state. -/
theorem initialisationLoadsImageAndClearsTheRest : Obligations.InitialisationLoadsImageAndClearsTheRest := by
  intro image hlen
  have hinit : initialise image = .next (State.reset.withMem (Memory.place [] 0 image)) := if_pos hlen
  exact ⟨_, hinit, fun a ha => initialise_read_image hinit ha, fun a ha => initialise_read_beyond hinit ha,
    fun r hr => reset_reg_of_ne_SP hr, rfl, rfl⟩

/-- Settles O3: the length check, and at the reset state's pc the zero fill's byte, which is not registered. -/
theorem longImageIsRefusedAndEmptyImageFaults : Obligations.LongImageIsRefusedAndEmptyImageFaults := by
  refine ⟨fun image hlen => if_neg (by omega), rfl, ?_⟩
  exact step_unregistered reset_run (fetchDecode_unregistered (by simp) (by decide))

end Sys2Proof.Machine
end

section
/-! PROOF. The arithmetic results read as two's-complement numbers (spec/44_arithmetic.md R205): a byte and its signed
reading agree modulo 256, and sums, differences and products respect that. -/

namespace Sys2Proof.Machine

/-- Narrowing and reading as a signed byte is reducing to the signed range. -/
theorem mod256_toInt (e : Int) : (mod256 e).toInt = e.bmod 256 := BitVec.toInt_ofInt e

/-- The signed reading of a byte is its unsigned value, reduced to the signed range. -/
theorem byte_toInt (x : Byte) : x.toInt = (x.toNat : Int).bmod 256 := BitVec.toInt_eq_toNat_bmod x

/-- An operation on two registers that respects the remainder modulo 256 also gives the signed result. -/
theorem arithTwo_toInt {f : Int → Int → Int}
    (hf : ∀ x y : Int, (f x y).bmod 256 = (f (x.bmod 256) (y.bmod 256)).bmod 256)
    {a b : Byte} {d r : Reg} (ha : a.toNat = d.val) (hb : b.toNat = r.val) (op : Byte) (s : State) :
    ∃ t, arithTwo op f a b s = .next t ∧ (t.reg d).toInt = (f (s.reg d).toInt (s.reg r).toInt).bmod 256 := by
  refine ⟨_, arithTwo_ok ha hb op f s, ?_⟩
  rw [advance_reg, setReg_reg_same, mod256_toInt, hf, ← byte_toInt, ← byte_toInt]

/-- An operation on one register that respects the remainder modulo 256 also gives the signed result. -/
theorem arithOne_toInt {f : Int → Int} (hf : ∀ x : Int, (f x).bmod 256 = (f (x.bmod 256)).bmod 256) {a : Byte} {d : Reg}
    (ha : a.toNat = d.val) (op : Byte) (s : State) :
    ∃ t, arithOne op f a s = .next t ∧ (t.reg d).toInt = (f (s.reg d).toInt).bmod 256 := by
  refine ⟨_, arithOne_ok ha op f s, ?_⟩
  rw [advance_reg, setReg_reg_same, mod256_toInt, hf, ← byte_toInt]

/-- Settles O29: the five operations respect the remainder modulo 256. -/
theorem arithmeticIsAlsoTwosComplement : Obligations.ArithmeticIsAlsoTwosComplement := by
  intro s a b d r ha hb
  refine ⟨?add, ?sub, ?mul, ?inc, ?dec⟩
  case add => exact arithTwo_toInt (f := fun x y => x + y) (fun x y => by simp) ha hb opcodeValues.add s
  case sub => exact arithTwo_toInt (f := fun x y => x - y) (fun x y => by simp) ha hb opcodeValues.sub s
  case mul => exact arithTwo_toInt (f := fun x y => x * y) (fun x y => by simp) ha hb opcodeValues.mul s
  case inc => exact arithOne_toInt (f := fun x => x + 1) (fun x => by simp) ha opcodeValues.inc s
  case dec => exact arithOne_toInt (f := fun x => x - 1) (fun x => by simp) ha opcodeValues.dec s

end Sys2Proof.Machine
end

section
/-! PROOF. The output stream (spec/10_state.md R32, spec/42_data_movement.md R182): no instruction reads it, PRINT_REGISTER
alone appends to it. The case split over the instructions is made once, in `exec_outBlind`. -/

namespace Sys2Proof.Machine

/-- The state with another output stream. -/
def State.withOut (s : State) (o : List Byte) : State := { s with out := o }

section WithOut
variable (s : State) (o : List Byte)

@[simp] theorem withOut_regs : (s.withOut o).regs = s.regs := rfl
@[simp] theorem withOut_mem : (s.withOut o).mem = s.mem := rfl
@[simp] theorem withOut_pc : (s.withOut o).pc = s.pc := rfl
@[simp] theorem withOut_run : (s.withOut o).run = s.run := rfl
@[simp] theorem withOut_fault : (s.withOut o).fault = s.fault := rfl
@[simp] theorem withOut_out : (s.withOut o).out = o := rfl

end WithOut

/-- What instruction `i` may append to the output on `s`: nothing, or a register's value if it is PRINT_REGISTER. -/
def MayEmit (i : Instr) (s : State) (e : List Byte) : Prop :=
  e = [] ∨ (∃ a, i = .prn a) ∧ ∃ r, e = [s.reg r]

/-- `f o` is what the handler of `i` answers on `s` with the output `o`. Under every output it answers the same next state,
but for the output, to which it appends what the instruction may. -/
def OutBlind (i : Instr) (s : State) (f : List Byte → Result) : Prop :=
  ∃ (s' : State) (e : List Byte), MayEmit i s e ∧ ∀ o, f o = .next (s'.withOut (o ++ e))

section OutBlind
variable {i : Instr} {s : State} {op : Byte}

theorem outBlind_raise (c : FaultCause) (addr : Int) : OutBlind i s fun o => raise op c addr (s.withOut o) :=
  ⟨s.enterFault { cause := c, fpc := s.pc, opcode := some op, addr := addr }, [], .inl rfl, fun o => by
    rw [List.append_nil]
    rfl⟩

/-- Completing with the output as it was. -/
theorem outBlind_complete {g : List Byte → State} (hg : ∀ o, g o = (g s.out).withOut o) :
    OutBlind i s fun o => complete op (g o) :=
  ⟨(g s.out).advance op, [], .inl rfl, fun o => by
    rw [List.append_nil]
    exact congrArg (complete op) (hg o)⟩

/-- The register check looks at the operand byte alone (R23). -/
theorem outBlind_withReg (a : Byte) {k : List Byte → Reg → Result} (hk : ∀ r, OutBlind i s fun o => k o r) :
    OutBlind i s fun o => withReg op a (s.withOut o) (k o) := by
  by_cases ha : a.toNat < 8
  · simpa only [withReg_ok (regOperand_some ha)] using hk ⟨a.toNat, ha⟩
  · simpa only [withReg_bad (Nat.le_of_not_lt ha)] using outBlind_raise .badRegister _

/-- A check on registers and memory takes the same branch under every output. -/
theorem outBlind_ite {c : Prop} [Decidable c] {f g : List Byte → Result} (hf : OutBlind i s f) (hg : OutBlind i s g) :
    OutBlind i s fun o => if c then f o else g o := by
  by_cases h : c
  · simpa only [if_pos h] using hf
  · simpa only [if_neg h] using hg

end OutBlind

theorem arithTwo_outBlind (i : Instr) (op : Byte) (f : Int → Int → Int) (a b : Byte) (s : State) :
    OutBlind i s fun o => arithTwo op f a b (s.withOut o) :=
  outBlind_withReg a fun _ => outBlind_withReg b fun _ => outBlind_complete fun _ => rfl

theorem arithOne_outBlind (i : Instr) (op : Byte) (f : Int → Int) (a : Byte) (s : State) :
    OutBlind i s fun o => arithOne op f a (s.withOut o) :=
  outBlind_withReg a fun _ => outBlind_complete fun _ => rfl

/-- PRINT_REGISTER appends its register's value to whatever the output is (R181). -/
theorem execPrn_outBlind (a : Byte) (s : State) : OutBlind (.prn a) s fun o => execPrn a (s.withOut o) :=
  outBlind_withReg a fun r => ⟨s.advance opcodeValues.prn, [s.reg r], .inr ⟨⟨a, rfl⟩, r, rfl⟩, fun _ => rfl⟩

theorem execPush_outBlind (a : Byte) (s : State) : OutBlind (.push a) s fun o => execPush a (s.withOut o) :=
  outBlind_withReg a fun _ => outBlind_ite (c := pushAddress s < 0) (outBlind_raise _ (pushAddress s))
    (outBlind_complete fun _ => rfl)

theorem execPop_outBlind (a : Byte) (s : State) : OutBlind (.pop a) s fun o => execPop a (s.withOut o) :=
  outBlind_withReg a fun d => outBlind_ite (c := (255 : Int) < ((s.loaded d).reg SP).toNat + 1)
    (outBlind_raise _ (((s.loaded d).reg SP).toNat + 1)) (outBlind_complete fun _ => rfl)

/-- No instruction reads the output, and none but PRINT_REGISTER appends to it (R32). -/
theorem exec_outBlind (i : Instr) (s : State) : OutBlind i s fun o => exec i (s.withOut o) := by
  cases i with
  | hlt => exact outBlind_complete fun _ => rfl
  | ldi a b => exact outBlind_withReg a fun _ => outBlind_complete fun _ => rfl
  | prn a => exact execPrn_outBlind a s
  | push a => exact execPush_outBlind a s
  | pop a => exact execPop_outBlind a s
  | add a b => exact arithTwo_outBlind _ opcodeValues.add (fun x y => x + y) a b s
  | sub a b => exact arithTwo_outBlind _ opcodeValues.sub (fun x y => x - y) a b s
  | mul a b => exact arithTwo_outBlind _ opcodeValues.mul (fun x y => x * y) a b s
  | inc a => exact arithOne_outBlind _ opcodeValues.inc (fun x => x + 1) a s
  | dec a => exact arithOne_outBlind _ opcodeValues.dec (fun x => x - 1) a s

/-- An instruction other than PRINT_REGISTER keeps the output. -/
theorem exec_out_of_ne_prn {i : Instr} {s t : State} (hi : ∀ a, i ≠ .prn a) (h : exec i s = .next t) : t.out = s.out := by
  obtain ⟨s', e, he, hall⟩ := exec_outBlind i s
  obtain rfl : t = s'.withOut (s.out ++ e) := Host.Outcome.next.inj (h.symm.trans (hall s.out))
  rcases he with rfl | ⟨⟨a, ha⟩, -⟩
  · exact List.append_nil _
  · exact absurd ha (hi a)

/-- PRINT_REGISTER appends one register's value and keeps the run state, or faults and keeps the output. -/
theorem exec_prn_out {a : Byte} {s t : State} (h : exec (.prn a) s = .next t) :
    (t.run = s.run ∧ ∃ r, t.out = s.out ++ [s.reg r]) ∨ (t.run = .faulted ∧ t.out = s.out) := by
  rcases withReg_cases opcodeValues.prn a s (fun r => complete opcodeValues.prn (s.emit (s.reg r))) with
    ⟨r, -, hk⟩ | ⟨-, hk⟩
  · obtain rfl := complete_next (hk.symm.trans h)
    exact .inl ⟨rfl, r, rfl⟩
  · obtain rfl := raise_next (hk.symm.trans h)
    exact .inr ⟨rfl, rfl⟩

theorem opcodeOf_eq_prn {i : Instr} (h : opcodeOf i = opcodeValues.prn) : ∃ a, i = .prn a := by
  cases i <;> simp [opcodeOf, opcodeWith, opcodeValues] at h ⊢

/-- A step that runs a decoded instruction appends one value if that is PRINT_REGISTER and does not fault, else nothing. -/
theorem step_out_of_instr {i : Instr} {s t : State} (hrun : s.run = .running) (hd : fetchDecode s = .instr i)
    (h : exec i s = .next t) :
    (t.out = s.out ∧ (s.mem.read s.pc.toNat ≠ opcodeValues.prn ∨ t.run = .faulted)) ∨
      (s.mem.read s.pc.toNat = opcodeValues.prn ∧ t.run = .running ∧ ∃ r, t.out = s.out ++ [s.reg r]) := by
  obtain ⟨hop, -⟩ := fetchDecode_instr hd
  by_cases hprn : opcodeOf i = opcodeValues.prn
  · obtain ⟨a, rfl⟩ := opcodeOf_eq_prn hprn
    rcases exec_prn_out h with ⟨ht, hout⟩ | ⟨ht, hout⟩
    · exact .inr ⟨hop.symm, ht.trans hrun, hout⟩
    · exact .inl ⟨hout, .inr ht⟩
  · have hne : ∀ a, i ≠ .prn a := fun a ha => hprn (congrArg opcodeOf ha)
    exact .inl ⟨exec_out_of_ne_prn hne h, .inl (hop ▸ hprn)⟩

/-- Settles O33: a step runs an instruction or enters a fault, which keeps the output; `exec_outBlind` for the rest. -/
theorem outputGrowsOnlyByPrint : Obligations.OutputGrowsOnlyByPrint := by
  refine ⟨fun s t h => ?_, fun i s t o h => ?_⟩
  · obtain ⟨hrun, ⟨i, hd, hi⟩ | ⟨-, rfl⟩ | ⟨_, -, rfl⟩ | ⟨_, _, -, rfl⟩⟩ := step_next_cases h
    · exact (step_out_of_instr hrun hd hi).imp_left fun ⟨hout, hwhy⟩ => ⟨hout, hwhy.imp_right .inr⟩
    all_goals exact .inl ⟨rfl, .inr (.inr rfl)⟩
  · obtain ⟨s', e, -, hall⟩ := exec_outBlind i s
    obtain rfl : t = s'.withOut (s.out ++ e) := Host.Outcome.next.inj (h.symm.trans (hall s.out))
    exact ⟨_, hall o, rfl, rfl, rfl, rfl, rfl⟩

/-- The code at a later pc of the same memory is what is left of the code. -/
theorem codeAt_drop {s t : State} {n : Nat} (hmem : t.mem = s.mem) (hpc : t.pc.toNat = s.pc.toNat + n) :
    codeAt t = (codeAt s).drop n := by
  refine List.ext_getElem? fun k => ?_
  rw [List.getElem?_drop, codeAt_getElem?, codeAt_getElem?, hmem, hpc, Nat.add_assoc]

/-- The bytes at the pc reach to the end of memory. -/
theorem codeAt_length (s : State) : (codeAt s).length = 256 - s.pc.toNat := by
  simp [codeAt]

/-- Two instructions whose bytes lie one after the other at the pc run in two steps, if the first one completes with memory
as it was. -/
theorem runFor_two {i j : Instr} {s s' u : State} (hrun : s.run = .running) (hcode : encode i ++ encode j <+: codeAt s)
    (hi : exec i s = .next (s'.advance (opcodeOf i))) (hmem : s'.mem = s.mem) (hpc : s'.pc = s.pc)
    (hrun' : s'.run = .running) (hj : exec j (s'.advance (opcodeOf i)) = .next u) : runFor 2 s = .next u := by
  have hlen : (encode i).length = operandCount (opcodeOf i) + 1 := encode_length i
  have hfits := hcode.length_le
  rw [List.length_append, codeAt_length] at hfits
  have hadv : (s'.advance (opcodeOf i)).pc.toNat = s.pc.toNat + (encode i).length := by
    rw [advance_pc_toNat (by rw [hpc]; omega), hpc, hlen]
  have hfirst : step s = exec i s := step_of_encode_prefix hrun ((List.prefix_append ..).trans hcode)
  have hsecond : step (s'.advance (opcodeOf i)) = exec j (s'.advance (opcodeOf i)) := by
    refine step_of_encode_prefix hrun' ?_
    rw [codeAt_drop ((advance_mem ..).trans hmem) hadv]
    simpa using hcode.drop (encode i).length
  rw [runFor_next (hfirst.trans hi), runFor_next (hsecond.trans hj), runFor_zero]

/-- Settles O30: the printed register is the one just loaded. -/
theorem loadThenPrintOutputsTheValue : Obligations.LoadThenPrintOutputsTheValue := by
  intro s a v r ha
  have hload := exec_ldi ha v s
  have hprint := exec_prn ha ((s.setReg r v).advance opcodeValues.ldi)
  have hval : ((s.setReg r v).advance opcodeValues.ldi).reg r = v := setReg_reg_same s r v
  have hpc : (s.pc + BitVec.ofNat 9 (lengthOf opcodeValues.ldi)) + BitVec.ofNat 9 (lengthOf opcodeValues.prn) =
      s.pc + 5 := by
    rw [lengthOf_ldi, lengthOf_prn, BitVec.add_assoc]
    rfl
  rw [hval] at hprint
  exact ⟨_, _, hload, hprint, rfl, hval, fun q hq => setReg_reg_ne s r q v (by simpa using hq), fun _ => rfl, rfl, rfl,
    hpc, fun hrun hcode => runFor_two (s' := s.setReg r v) hrun hcode hload rfl rfl hrun hprint⟩

end Sys2Proof.Machine
end

section
/-! PROOF. The text of the output (spec/60_exceptions.md R320): one, two or three digits by the size of the value. -/

namespace Sys2Proof.Machine

/-- The digits of a value, by how many it has. -/
theorem decimalDigits_cases (v : Byte) :
    (v.toNat < 10 ∧ decimalDigits v = [v.toNat]) ∨
    (10 ≤ v.toNat ∧ v.toNat < 100 ∧ decimalDigits v = [v.toNat / 10, v.toNat % 10]) ∨
    (100 ≤ v.toNat ∧ decimalDigits v = [v.toNat / 100, v.toNat / 10 % 10, v.toNat % 10]) := by
  unfold decimalDigits
  split
  · exact .inl ⟨‹_›, rfl⟩
  · split
    · exact .inr (.inl ⟨by omega, ‹_›, rfl⟩)
    · exact .inr (.inr ⟨by omega, rfl⟩)

theorem decimalDigits_ne_nil (v : Byte) : decimalDigits v ≠ [] := by
  rcases decimalDigits_cases v with ⟨-, h⟩ | ⟨-, -, h⟩ | ⟨-, h⟩ <;> simp [h]

theorem decimalDigits_le {v : Byte} {d : Nat} (hd : d ∈ decimalDigits v) : d ≤ 9 := by
  have hv := v.isLt
  rcases decimalDigits_cases v with ⟨hlt, h⟩ | ⟨-, hlt, h⟩ | ⟨-, h⟩ <;> simp [h] at hd <;> omega

/-- Read as a decimal number the digits are the value. -/
theorem decimalDigits_value (v : Byte) : (decimalDigits v).foldl (fun n d => 10 * n + d) 0 = v.toNat := by
  rcases decimalDigits_cases v with ⟨-, h⟩ | ⟨-, -, h⟩ | ⟨-, h⟩ <;> simp [h] <;> omega

/-- A leading zero stands only in the one digit of 0. -/
theorem decimalDigits_head_zero {v : Byte} (hz : (decimalDigits v).head? = some 0) :
    v = 0 ∧ (decimalDigits v).length = 1 := by
  rcases decimalDigits_cases v with ⟨-, h⟩ | ⟨hge, -, h⟩ | ⟨hge, h⟩
  · have hv : v.toNat = 0 := by simpa [h] using hz
    exact ⟨BitVec.eq_of_toNat_eq hv, by simp [h]⟩
  · simp [h] at hz
    omega
  · simp [h] at hz
    omega

/-- Settles O43: the digits by their number, and the text value by value. -/
theorem printedTextIsTheDecimalValue : Obligations.PrintedTextIsTheDecimalValue := by
  refine ⟨fun v => ⟨decimalDigits_ne_nil v, fun _ => decimalDigits_le, decimalDigits_value v, decimalDigits_head_zero⟩,
    rfl, fun v out => ?_⟩
  simp [renderOutput, renderValue]

end Sys2Proof.Machine
end

section
/-! PROOF. A pushed byte and the next fetch (spec/20_memory.md R75, spec/70_reset_and_hazards.md R411): the step after a PUSH
reads memory as the PUSH left it, with the pushed byte at whatever offset it was stored. -/

namespace Sys2Proof.Machine

/-- A byte fetched inside an instruction is the one at the same offset of its encoding. -/
theorem encode_getElem?_of_fetch {s : State} {i : Instr} {k : Nat} {v : Byte} (hd : fetchDecode s = .instr i)
    (hv : s.mem.fetch (s.pc.toNat + k) = some v) (hk : k ≤ operandCount (opcodeOf i)) : (encode i)[k]? = some v := by
  have hcode : encode i <+: codeAt s := decodedBytesAreTheEncoding _ _ ((decode_codeAt s).trans hd)
  have hlen : (encode i).length = operandCount (opcodeOf i) + 1 := encode_length i
  have hlt : k < (encode i).length := by omega
  rw [← codeAt_getElem?, List.prefix_iff_getElem?.mp hcode k hlt] at hv
  rw [List.getElem?_eq_getElem hlt, hv]

section Fetched
variable {s : State} {k : Nat} {v : Byte}

/-- A fetched byte is read inside memory. -/
theorem fetch_lt {a : Nat} (hv : s.mem.fetch a = some v) : a < 256 := by
  by_contra h
  rw [Memory.fetch_none h] at hv
  simp at hv

/-- A fetched opcode without a handler takes DECODE_ERROR with it (R143). -/
theorem step_fetched_unregistered (hrun : s.run = .running) (hv : s.mem.fetch s.pc.toNat = some v)
    (hop : ¬ registered v) : TakesFault s (step s) .decodeError (some v) s.pc.toNat := by
  have hpc := fetch_lt hv
  obtain rfl := Memory.read_of_fetch hv
  exact step_unregistered hrun (fetchDecode_unregistered (by omega) hop)

/-- A fetched opcode whose operands run past the last cell takes FETCH_OUT_OF_BOUNDS with it (R144). -/
theorem step_fetched_cutOff (hrun : s.run = .running) (hv : s.mem.fetch s.pc.toNat = some v) (hreg : registered v)
    (hout : 255 < s.pc.toNat + operandCount v) : TakesFault s (step s) .fetchOutOfBounds (some v) 256 :=
  step_missingOperand hrun (by have := fetch_lt hv; omega) (Memory.read_of_fetch hv) hreg hout

/-- Where the instruction at the pc lies inside memory, the step runs one whose encoding holds the fetched byte (R145). -/
theorem step_fetched_registered (hrun : s.run = .running) (hv : s.mem.fetch (s.pc.toNat + k) = some v)
    (hreg : registered (s.mem.read s.pc.toNat)) (hin : s.pc.toNat + operandCount (s.mem.read s.pc.toNat) ≤ 255) :
    ∃ i, step s = exec i s ∧ opcodeOf i = s.mem.read s.pc.toNat ∧
      (k ≤ operandCount (s.mem.read s.pc.toNat) → (encode i)[k]? = some v) := by
  obtain ⟨i, hd, hop, hstep⟩ := step_registered hrun hreg hin
  exact ⟨i, hstep, hop, fun hk => encode_getElem?_of_fetch hd hv (hop ▸ hk)⟩

/-- A fetched HALT ends the run one past it (R146). -/
theorem step_fetched_hlt (hrun : s.run = .running) (hv : s.mem.fetch s.pc.toNat = some opcodeValues.hlt) :
    ∃ u, step s = .next u ∧ u.run = .halted ∧ u.pc.toNat = s.pc.toNat + 1 := by
  have hpc := fetch_lt hv
  obtain ⟨u, hu, -, hhalted, hadv, -⟩ := haltStopsTheCycle.2.2 s hrun (by omega) (Memory.read_of_fetch hv)
  exact ⟨u, hu, hhalted, hadv⟩

end Fetched

section PushedStep
variable {s : State} {a : Byte} {r : Reg}

/-- The state after the step of a PUSH of register `r`. -/
def State.afterPush (s : State) (r : Reg) : State := (s.pushed r).advance opcodeValues.push

/-- A PUSH whose bytes lie at the pc is run by the step, and completes if its address is inside memory (R190). -/
theorem step_push (hrun : s.run = .running) (hcode : encode (.push a) <+: codeAt s) (ha : a.toNat = r.val)
    (h : 0 ≤ pushAddress s) : step s = .next (s.afterPush r) :=
  (step_of_encode_prefix hrun hcode).trans (exec_push_ok ha h)

/-- A PUSH whose bytes lie at the pc leaves the pc two bytes on, without wrapping. -/
theorem afterPush_pc (hcode : encode (.push a) <+: codeAt s) : (s.afterPush r).pc.toNat = s.pc.toNat + 2 := by
  have hcount : operandCount opcodeValues.push = 1 := by decide
  have hlen : (encode (.push a)).length = 2 := rfl
  have hfits := hcode.length_le
  rw [hlen, codeAt_length] at hfits
  rw [State.afterPush, advance_pc_toNat (by rw [pushed_pc, hcount]; omega), pushed_pc, hcount]

/-- After a PUSH its address reads the pushed byte. -/
theorem afterPush_read (hwf : s.mem.wf) {p : Nat} (hp : pushAddress s = p) :
    (s.afterPush r).mem.read p = (s.afterPush r).reg r :=
  (pushed_mem_read hwf hp.symm).1

/-- PUSH leaves every register but R7 as it was. -/
theorem afterPush_reg (h : r ≠ SP) : (s.afterPush r).reg r = s.reg r := pushed_reg_ne (r := r) h

theorem afterPush_fetch (hwf : s.mem.wf) {p : Nat} (hp : pushAddress s = p) :
    (s.afterPush r).mem.fetch p = some ((s.afterPush r).reg r) := by
  have hlt := pushAddress_lt (s := s)
  rw [Memory.fetch_some (by unfold inMemory; omega), afterPush_read hwf hp]

end PushedStep

/-- Settles O34: the state after the PUSH fetches the pushed byte, and the next step is decided by what is fetched. -/
theorem nextFetchSeesThePushedByte : Obligations.NextFetchSeesThePushedByte := by
  intro s a r hrun hwf ha hcode
  refine ⟨fun k hk => ?_, fun hk => ?_⟩
  · have hpos : 0 ≤ pushAddress s := by omega
    have hstep := step_push hrun hcode ha hpos
    have hpc := afterPush_pc (r := r) hcode
    have hsp : (((s.afterPush r).reg SP).toNat : Int) = pushAddress s :=
      pushed_reg_SP (r := r) hpos
    have hfetch : (s.afterPush r).mem.fetch ((s.afterPush r).pc.toNat + k) = some ((s.afterPush r).reg r) :=
      afterPush_fetch hwf (by rw [hpc, hk]; norm_cast)
    refine ⟨_, hstep, hrun, hpc, by omega, afterPush_reg, hfetch, ?_, ?_, step_fetched_registered hrun hfetch, ?_⟩
    · rintro rfl
      exact step_fetched_unregistered hrun hfetch
    · rintro rfl
      exact step_fetched_cutOff hrun hfetch
    · rintro rfl hhlt
      rw [hhlt] at hfetch
      obtain ⟨u, hu, hhalted, hadv⟩ := step_fetched_hlt (s := s.afterPush r) hrun hfetch
      exact ⟨u, by rw [runFor_next hstep, runFor_next hu, runFor_zero], hhalted, by omega⟩
  · exact ⟨_, step_push hrun hcode ha (by omega), hrun, afterPush_read hwf hk, afterPush_reg⟩

end Sys2Proof.Machine
end
